-- ==== Sys2Proof/Word.lean ====
section
/-! DEFINITION. The types the whole model shares: the 16-bit word (00_scope.md R4, R6), the byte (20_memory.md R40),
and the names of the eight general registers (10_state.md R20). -/

namespace Sys2Proof

/-- XLEN = ALEN = 16: a register value, an address or a memory datum (R4, R6). -/
abbrev Word := BitVec 16

/-- One addressable unit of memory (R40). -/
abbrev Byte := BitVec 8

/-- The names of the eight general registers; none is hard-wired (R20, R21). -/
inductive Reg where
  | R0 | R1 | R2 | R3 | R4 | R5 | R6 | R7
  deriving DecidableEq, Repr

end Sys2Proof
end

