-- ==== Sys2Proof/Config.lean ====
section
/-! DEFINITION. The parameters the spec leaves open (00_scope.md section 5; 92_eei_decisions.md, "Parameters left
open"), each with the values the spec defines for it, and the constants that fill what the spec leaves unspecified at
reset. MISALIGNED_DATA and MISALIGNED_FETCH have one value, fault, so they are no field (log entry 11). -/

namespace Sys2Proof.Config

/-- ENDIAN: which of the two bytes of a datum lies at the lower address (20_memory.md R43, D5). -/
inductive Endian where
  | big
  | little
  deriving DecidableEq, Repr

/-- IFETCH_COHERENCE: what a fetch of a byte does that a store has written since reset (20_memory.md R53, D8). -/
inductive FetchCoherence where
  | fault
  | unified
  | split
  deriving DecidableEq, Repr

/-- UNASSIGNED_OPCODE: what a word with opcode 01111 or 11001 does (30_encoding.md R83, D9). -/
inductive UnassignedOpcode where
  | fault
  | illegalop
  deriving DecidableEq, Repr

/-- The open parameters of one machine. They are launch arguments: no step changes them (log entry 1). -/
structure Params where
  endian     : Endian
  ifetch     : FetchCoherence
  unassigned : UnassignedOpcode
  /-- EXC: whether SIIC raises IllegalOp and RTI loads the PC from EPC (00_scope.md R7, D12). -/
  exc        : Bool
  deriving DecidableEq, Repr

/-- The defaults of the spec's parameter table (00_scope.md section 5; log entry 2). -/
def Params.default : Params :=
  { endian := .big, ifetch := .fault, unassigned := .fault, exc := true }

/-- DESIGN CHOICE, unsafe (log entry 6): what a byte of memory reads as that the memory's list does not hold. -/
def unlistedByte : Byte := 0

/-- DESIGN CHOICE, unsafe (log entry 3): what `State.reset` gives R0 to R7, which the spec leaves unspecified. -/
def resetRegister : Word := 0

/-- DESIGN CHOICE, unsafe (log entry 4): what `State.reset` gives EPC, which the spec leaves unspecified. -/
def resetEpc : Word := 0

/-- RESET_PC (10_state.md R33, 70_reset_and_hazards.md R250). -/
def resetPc : Word := 0x0000

end Sys2Proof.Config
end

