-- ==== Sys2Proof/Syntax.lean ====
section
/-! DEFINITION. The 36 instructions (00_scope.md R2), one constructor per row of spec/opcode_table.json. Operands stand
in the order of the assembly syntax (30_encoding.md R87), immediates as the bits of their field (R77). -/

namespace Sys2Proof

/-- An instruction of WISC-SP10. Ignored bits are no operand (R82), but for two the syntax writes: the dummy register
of SIIC (R84) and bit 4 of a shift immediate, which a well-formed instruction has zero (D28; `Instr.wellFormed`). -/
inductive Instr where
  -- special and exception instructions
  | halt
  | nop
  | siic (rs : Reg)
  | rti
  -- jumps and branches
  | j    (disp11 : BitVec 11)
  | jr   (rs : Reg) (imm8 : BitVec 8)
  | jal  (disp11 : BitVec 11)
  | jalr (rs : Reg) (imm8 : BitVec 8)
  -- I-format 1, arithmetic and logical
  | addi (rd rs : Reg) (imm5 : BitVec 5)
  | subi (rd rs : Reg) (imm5 : BitVec 5)
  | ori  (rd rs : Reg) (imm5 : BitVec 5)
  | andi (rd rs : Reg) (imm5 : BitVec 5)
  | beqz (rs : Reg) (imm8 : BitVec 8)
  | bnez (rs : Reg) (imm8 : BitVec 8)
  | ret
  -- memory; in ST and STU `rd` is the register stored
  | st   (rd rs : Reg) (imm5 : BitVec 5)
  | ld   (rd rs : Reg) (imm5 : BitVec 5)
  | slbi (rs : Reg) (imm8 : BitVec 8)
  | stu  (rd rs : Reg) (imm5 : BitVec 5)
  -- I-format 1, shifts and rotates
  | roli (rd rs : Reg) (imm5 : BitVec 5)
  | slli (rd rs : Reg) (imm5 : BitVec 5)
  | rori (rd rs : Reg) (imm5 : BitVec 5)
  | srai (rd rs : Reg) (imm5 : BitVec 5)
  | lbi  (rs : Reg) (imm8 : BitVec 8)
  -- R-format
  | rol  (rd rs rt : Reg)
  | sll  (rd rs rt : Reg)
  | ror  (rd rs rt : Reg)
  | sra  (rd rs rt : Reg)
  | add  (rd rs rt : Reg)
  | sub  (rd rs rt : Reg)
  | or   (rd rs rt : Reg)
  | and  (rd rs rt : Reg)
  | seq  (rd rs rt : Reg)
  | slt  (rd rs rt : Reg)
  | sle  (rd rs rt : Reg)
  | sco  (rd rs rt : Reg)
  deriving DecidableEq, Repr

end Sys2Proof
end

