-- ==== Sys2Proof/WellFormed.lean ====
section
/-! DEFINITION. Which terms of `Instr` an assembler of this spec emits (92_eei_decisions.md D28). The types of the
operands already bound every field; the one further bound is on the shift and rotate immediates. -/

namespace Sys2Proof

/-- A shift or rotate immediate is 0 to 15: bit 4 of the field is ignored by the hardware and canonically 0
(30_encoding.md R77, R82, R89; D28). -/
def shiftAmountFits (imm5 : BitVec 5) : Bool := imm5.toNat ≤ 15

/-- The check on an instruction: `true` when its operands are ones that the assembler accepts. -/
def Instr.wellFormed : Instr → Bool
  | .halt => true
  | .nop => true
  | .siic _ => true
  | .rti => true
  | .j _ => true
  | .jr _ _ => true
  | .jal _ => true
  | .jalr _ _ => true
  | .addi _ _ _ => true
  | .subi _ _ _ => true
  | .ori _ _ _ => true
  | .andi _ _ _ => true
  | .beqz _ _ => true
  | .bnez _ _ => true
  | .ret => true
  | .st _ _ _ => true
  | .ld _ _ _ => true
  | .slbi _ _ => true
  | .stu _ _ _ => true
  | .roli _ _ imm5 => shiftAmountFits imm5
  | .slli _ _ imm5 => shiftAmountFits imm5
  | .rori _ _ imm5 => shiftAmountFits imm5
  | .srai _ _ imm5 => shiftAmountFits imm5
  | .lbi _ _ => true
  | .rol _ _ _ => true
  | .sll _ _ _ => true
  | .ror _ _ _ => true
  | .sra _ _ _ => true
  | .add _ _ _ => true
  | .sub _ _ _ => true
  | .or _ _ _ => true
  | .and _ _ _ => true
  | .seq _ _ _ => true
  | .slt _ _ _ => true
  | .sle _ _ _ => true
  | .sco _ _ _ => true

end Sys2Proof
end

