-- ==== Sys2Proof/Decode.lean ====
section
/-! DEFINITION. The encoding of the instructions (30_encoding.md): the fields of a word, the decoder (R85), the encoder
with every ignored bit 0 (R82, R84), the match/mask table of the file's section 4, and the layout of a word in bytes
(20_memory.md R43). -/

namespace Sys2Proof

/-! ### Register numbers (10_state.md R20) -/

/-- The register that a 3-bit field selects. -/
def Reg.ofBits (n : BitVec 3) : Reg :=
  match n with
  | 0#3 => .R0
  | 1#3 => .R1
  | 2#3 => .R2
  | 3#3 => .R3
  | 4#3 => .R4
  | 5#3 => .R5
  | 6#3 => .R6
  | 7#3 => .R7

/-- The number of a register. -/
def Reg.toBits : Reg → BitVec 3
  | .R0 => 0#3
  | .R1 => 1#3
  | .R2 => 2#3
  | .R3 => 3#3
  | .R4 => 4#3
  | .R5 => 5#3
  | .R6 => 6#3
  | .R7 => 7#3

/-! ### Fields (R70, R72 to R76, R86) -/

/-- insn[15:11], the opcode of every format. -/
def opcodeField (w : Word) : BitVec 5 := w.extractLsb 15 11
/-- insn[10:8], Rs of I-format 1, I-format 2 and R-format. -/
def rsField (w : Word) : Reg := Reg.ofBits (w.extractLsb 10 8)
/-- insn[7:5], Rd of I-format 1. -/
def rdFieldI (w : Word) : Reg := Reg.ofBits (w.extractLsb 7 5)
/-- insn[7:5], Rt of the R-format. -/
def rtField (w : Word) : Reg := Reg.ofBits (w.extractLsb 7 5)
/-- insn[4:2], Rd of the R-format. -/
def rdFieldR (w : Word) : Reg := Reg.ofBits (w.extractLsb 4 2)
/-- insn[1:0], the Op Code Extension of the R-format. -/
def extField (w : Word) : BitVec 2 := w.extractLsb 1 0
/-- insn[4:0] of I-format 1. -/
def imm5Field (w : Word) : BitVec 5 := w.extractLsb 4 0
/-- insn[3:0] of I-format 1 with the ignored insn[4] read as 0, for the shifts and rotates (R77, R82; log entry 13). -/
def shiftImmField (w : Word) : BitVec 5 := (w.extractLsb 3 0 : BitVec 4).setWidth 5
/-- insn[7:0] of I-format 2. -/
def imm8Field (w : Word) : BitVec 8 := w.extractLsb 7 0
/-- insn[10:0] of the J-format. -/
def disp11Field (w : Word) : BitVec 11 := w.extractLsb 10 0

/-! ### The decoder (R85) -/

/-- Why bytes decode to no instruction. -/
inductive DecodeError where
  /-- Opcode 01111 or 11001 (R83). -/
  | unassignedOpcode (op : BitVec 5)
  /-- Fewer than the two bytes of an instruction (R70); a fetch never meets this. -/
  | truncated
  deriving DecidableEq, Repr

/-- The four instructions of opcode 11010, by insn[1:0] (R80). -/
def decodeShiftR (w : Word) : Instr :=
  match extField w with
  | 0b00#2 => .rol (rdFieldR w) (rsField w) (rtField w)
  | 0b01#2 => .sll (rdFieldR w) (rsField w) (rtField w)
  | 0b10#2 => .ror (rdFieldR w) (rsField w) (rtField w)
  | 0b11#2 => .sra (rdFieldR w) (rsField w) (rtField w)

/-- The four instructions of opcode 11011, by insn[1:0] (R80). -/
def decodeAluR (w : Word) : Instr :=
  match extField w with
  | 0b00#2 => .add (rdFieldR w) (rsField w) (rtField w)
  | 0b01#2 => .sub (rdFieldR w) (rsField w) (rtField w)
  | 0b10#2 => .or (rdFieldR w) (rsField w) (rtField w)
  | 0b11#2 => .and (rdFieldR w) (rsField w) (rtField w)

/-- The instruction that a word is, by the opcode map R79; total, and every unassigned opcode is rejected (R83). -/
def decodeWord (w : Word) : Except DecodeError Instr :=
  match opcodeField w with
  | 0b00000#5 => .ok .halt
  | 0b00001#5 => .ok .nop
  | 0b00010#5 => .ok (.siic (rsField w))
  | 0b00011#5 => .ok .rti
  | 0b00100#5 => .ok (.j (disp11Field w))
  | 0b00101#5 => .ok (.jr (rsField w) (imm8Field w))
  | 0b00110#5 => .ok (.jal (disp11Field w))
  | 0b00111#5 => .ok (.jalr (rsField w) (imm8Field w))
  | 0b01000#5 => .ok (.addi (rdFieldI w) (rsField w) (imm5Field w))
  | 0b01001#5 => .ok (.subi (rdFieldI w) (rsField w) (imm5Field w))
  | 0b01010#5 => .ok (.ori (rdFieldI w) (rsField w) (imm5Field w))
  | 0b01011#5 => .ok (.andi (rdFieldI w) (rsField w) (imm5Field w))
  | 0b01100#5 => .ok (.beqz (rsField w) (imm8Field w))
  | 0b01101#5 => .ok (.bnez (rsField w) (imm8Field w))
  | 0b01110#5 => .ok .ret
  | 0b10000#5 => .ok (.st (rdFieldI w) (rsField w) (imm5Field w))
  | 0b10001#5 => .ok (.ld (rdFieldI w) (rsField w) (imm5Field w))
  | 0b10010#5 => .ok (.slbi (rsField w) (imm8Field w))
  | 0b10011#5 => .ok (.stu (rdFieldI w) (rsField w) (imm5Field w))
  | 0b10100#5 => .ok (.roli (rdFieldI w) (rsField w) (shiftImmField w))
  | 0b10101#5 => .ok (.slli (rdFieldI w) (rsField w) (shiftImmField w))
  | 0b10110#5 => .ok (.rori (rdFieldI w) (rsField w) (shiftImmField w))
  | 0b10111#5 => .ok (.srai (rdFieldI w) (rsField w) (shiftImmField w))
  | 0b11000#5 => .ok (.lbi (rsField w) (imm8Field w))
  | 0b11010#5 => .ok (decodeShiftR w)
  | 0b11011#5 => .ok (decodeAluR w)
  | 0b11100#5 => .ok (.seq (rdFieldR w) (rsField w) (rtField w))
  | 0b11101#5 => .ok (.slt (rdFieldR w) (rsField w) (rtField w))
  | 0b11110#5 => .ok (.sle (rdFieldR w) (rsField w) (rtField w))
  | 0b11111#5 => .ok (.sco (rdFieldR w) (rsField w) (rtField w))
  | op => .error (.unassignedOpcode op)

/-! ### A word in memory (20_memory.md R43, R44) -/

/-- The datum of two bytes, the one at the lower address first (R43). -/
def wordOfBytes (e : Config.Endian) (lower higher : Byte) : Word :=
  match e with
  | .big => lower ++ higher
  | .little => higher ++ lower

/-- The byte of a datum that lies at the lower address (R44). -/
def lowerByte (e : Config.Endian) (w : Word) : Byte :=
  match e with
  | .big => w.extractLsb 15 8
  | .little => w.extractLsb 7 0

/-- The byte of a datum that lies at the higher address (R44). -/
def higherByte (e : Config.Endian) (w : Word) : Byte :=
  match e with
  | .big => w.extractLsb 7 0
  | .little => w.extractLsb 15 8

/-- The first instruction in a list of bytes, and the bytes after it; total on any bytes. -/
def decodeBytes (e : Config.Endian) : List Byte → Except DecodeError (Instr × List Byte)
  | lower :: higher :: rest =>
    match decodeWord (wordOfBytes e lower higher) with
    | .ok i => .ok (i, rest)
    | .error r => .error r
  | _ => .error .truncated

/-! ### The encoder -/

/-- The opcode-only layout with every ignored bit 0 (R76, R82). -/
def encodeOpcodeOnly (op : BitVec 5) : Word := op ++ 0#11
/-- The J-format (R72). -/
def encodeJ (op : BitVec 5) (disp11 : BitVec 11) : Word := op ++ disp11
/-- I-format 1 (R73). -/
def encodeI1 (op : BitVec 5) (rs rd : Reg) (imm5 : BitVec 5) : Word := op ++ rs.toBits ++ rd.toBits ++ imm5
/-- I-format 2 (R74). -/
def encodeI2 (op : BitVec 5) (rs : Reg) (imm8 : BitVec 8) : Word := op ++ rs.toBits ++ imm8
/-- The R-format (R75). -/
def encodeR (op : BitVec 5) (rs rt rd : Reg) (ext : BitVec 2) : Word :=
  op ++ rs.toBits ++ rt.toBits ++ rd.toBits ++ ext

/-- The canonical word of an instruction, by the patterns of 30_encoding.md section 4. -/
def encode : Instr → Word
  | .halt => encodeOpcodeOnly 0b00000
  | .nop => encodeOpcodeOnly 0b00001
  | .siic rs => encodeI2 0b00010 rs 0
  | .rti => encodeOpcodeOnly 0b00011
  | .j d => encodeJ 0b00100 d
  | .jr rs imm => encodeI2 0b00101 rs imm
  | .jal d => encodeJ 0b00110 d
  | .jalr rs imm => encodeI2 0b00111 rs imm
  | .addi rd rs imm => encodeI1 0b01000 rs rd imm
  | .subi rd rs imm => encodeI1 0b01001 rs rd imm
  | .ori rd rs imm => encodeI1 0b01010 rs rd imm
  | .andi rd rs imm => encodeI1 0b01011 rs rd imm
  | .beqz rs imm => encodeI2 0b01100 rs imm
  | .bnez rs imm => encodeI2 0b01101 rs imm
  | .ret => encodeOpcodeOnly 0b01110
  | .st rd rs imm => encodeI1 0b10000 rs rd imm
  | .ld rd rs imm => encodeI1 0b10001 rs rd imm
  | .slbi rs imm => encodeI2 0b10010 rs imm
  | .stu rd rs imm => encodeI1 0b10011 rs rd imm
  | .roli rd rs imm => encodeI1 0b10100 rs rd imm
  | .slli rd rs imm => encodeI1 0b10101 rs rd imm
  | .rori rd rs imm => encodeI1 0b10110 rs rd imm
  | .srai rd rs imm => encodeI1 0b10111 rs rd imm
  | .lbi rs imm => encodeI2 0b11000 rs imm
  | .rol rd rs rt => encodeR 0b11010 rs rt rd 0b00
  | .sll rd rs rt => encodeR 0b11010 rs rt rd 0b01
  | .ror rd rs rt => encodeR 0b11010 rs rt rd 0b10
  | .sra rd rs rt => encodeR 0b11010 rs rt rd 0b11
  | .add rd rs rt => encodeR 0b11011 rs rt rd 0b00
  | .sub rd rs rt => encodeR 0b11011 rs rt rd 0b01
  | .or rd rs rt => encodeR 0b11011 rs rt rd 0b10
  | .and rd rs rt => encodeR 0b11011 rs rt rd 0b11
  | .seq rd rs rt => encodeR 0b11100 rs rt rd 0b00
  | .slt rd rs rt => encodeR 0b11101 rs rt rd 0b00
  | .sle rd rs rt => encodeR 0b11110 rs rt rd 0b00
  | .sco rd rs rt => encodeR 0b11111 rs rt rd 0b00

/-- The bytes of an instruction, the one at the lower address first. -/
def encodeBytes (e : Config.Endian) (i : Instr) : List Byte :=
  [lowerByte e (encode i), higherByte e (encode i)]

/-! ### The match/mask table (30_encoding.md section 4; opcode_table.json) -/

/-- A row of the table: a word is this instruction when `word &&& mask = pattern`. -/
structure OpcodeRow where
  mnemonic : String
  mask     : Word
  pattern  : Word
  deriving DecidableEq, Repr

/-- Whether a word matches a row. -/
def OpcodeRow.fits (r : OpcodeRow) (w : Word) : Bool := w &&& r.mask == r.pattern

/-- The rows of opcodes 00000 to 01110. -/
def opcodeRowsLow : List OpcodeRow :=
  [⟨"HALT", 0xF800, 0x0000⟩, ⟨"NOP", 0xF800, 0x0800⟩, ⟨"SIIC", 0xF800, 0x1000⟩, ⟨"RTI", 0xF800, 0x1800⟩,
   ⟨"J", 0xF800, 0x2000⟩, ⟨"JR", 0xF800, 0x2800⟩, ⟨"JAL", 0xF800, 0x3000⟩, ⟨"JALR", 0xF800, 0x3800⟩,
   ⟨"ADDI", 0xF800, 0x4000⟩, ⟨"SUBI", 0xF800, 0x4800⟩, ⟨"ORI", 0xF800, 0x5000⟩, ⟨"ANDI", 0xF800, 0x5800⟩,
   ⟨"BEQZ", 0xF800, 0x6000⟩, ⟨"BNEZ", 0xF800, 0x6800⟩, ⟨"RET", 0xF800, 0x7000⟩]

/-- The rows of opcodes 10000 to 11111. -/
def opcodeRowsHigh : List OpcodeRow :=
  [⟨"ST", 0xF800, 0x8000⟩, ⟨"LD", 0xF800, 0x8800⟩, ⟨"SLBI", 0xF800, 0x9000⟩, ⟨"STU", 0xF800, 0x9800⟩,
   ⟨"ROLI", 0xF800, 0xA000⟩, ⟨"SLLI", 0xF800, 0xA800⟩, ⟨"RORI", 0xF800, 0xB000⟩, ⟨"SRAI", 0xF800, 0xB800⟩,
   ⟨"LBI", 0xF800, 0xC000⟩, ⟨"ROL", 0xF803, 0xD000⟩, ⟨"SLL", 0xF803, 0xD001⟩, ⟨"ROR", 0xF803, 0xD002⟩,
   ⟨"SRA", 0xF803, 0xD003⟩, ⟨"ADD", 0xF803, 0xD800⟩, ⟨"SUB", 0xF803, 0xD801⟩, ⟨"OR", 0xF803, 0xD802⟩,
   ⟨"AND", 0xF803, 0xD803⟩, ⟨"SEQ", 0xF800, 0xE000⟩, ⟨"SLT", 0xF800, 0xE800⟩, ⟨"SLE", 0xF800, 0xF000⟩,
   ⟨"SCO", 0xF800, 0xF800⟩]

/-- The whole table, 36 rows. -/
def opcodeTable : List OpcodeRow := opcodeRowsLow ++ opcodeRowsHigh

/-- The mnemonic of an instruction, as the table spells it. -/
def Instr.mnemonic : Instr → String
  | .halt => "HALT"
  | .nop => "NOP"
  | .siic _ => "SIIC"
  | .rti => "RTI"
  | .j _ => "J"
  | .jr _ _ => "JR"
  | .jal _ => "JAL"
  | .jalr _ _ => "JALR"
  | .addi _ _ _ => "ADDI"
  | .subi _ _ _ => "SUBI"
  | .ori _ _ _ => "ORI"
  | .andi _ _ _ => "ANDI"
  | .beqz _ _ => "BEQZ"
  | .bnez _ _ => "BNEZ"
  | .ret => "RET"
  | .st _ _ _ => "ST"
  | .ld _ _ _ => "LD"
  | .slbi _ _ => "SLBI"
  | .stu _ _ _ => "STU"
  | .roli _ _ _ => "ROLI"
  | .slli _ _ _ => "SLLI"
  | .rori _ _ _ => "RORI"
  | .srai _ _ _ => "SRAI"
  | .lbi _ _ => "LBI"
  | .rol _ _ _ => "ROL"
  | .sll _ _ _ => "SLL"
  | .ror _ _ _ => "ROR"
  | .sra _ _ _ => "SRA"
  | .add _ _ _ => "ADD"
  | .sub _ _ _ => "SUB"
  | .or _ _ _ => "OR"
  | .and _ _ _ => "AND"
  | .seq _ _ _ => "SEQ"
  | .slt _ _ _ => "SLT"
  | .sle _ _ _ => "SLE"
  | .sco _ _ _ => "SCO"

/-! ### Assembly (R87 to R89; 92_eei_decisions.md D24, D28) -/

/-- An operand as the assembly text writes it: a register, or the number that an immediate or a displacement is. -/
inductive AsmOperand where
  | reg (r : Reg)
  | imm (v : Int)
  deriving DecidableEq, Repr

/-- The operands of an instruction in the order of its text (R87, R88), an immediate as the number it stands for (the
range column of R77). -/
def Instr.operands : Instr → List AsmOperand
  | .halt => []
  | .nop => []
  | .siic rs => [.reg rs]
  | .rti => []
  | .j d => [.imm d.toInt]
  | .jr rs imm => [.reg rs, .imm imm.toInt]
  | .jal d => [.imm d.toInt]
  | .jalr rs imm => [.reg rs, .imm imm.toInt]
  | .addi rd rs imm => [.reg rd, .reg rs, .imm imm.toInt]
  | .subi rd rs imm => [.reg rd, .reg rs, .imm imm.toInt]
  | .ori rd rs imm => [.reg rd, .reg rs, .imm imm.toNat]
  | .andi rd rs imm => [.reg rd, .reg rs, .imm imm.toNat]
  | .beqz rs imm => [.reg rs, .imm imm.toInt]
  | .bnez rs imm => [.reg rs, .imm imm.toInt]
  | .ret => []
  | .st rd rs imm => [.reg rd, .reg rs, .imm imm.toInt]
  | .ld rd rs imm => [.reg rd, .reg rs, .imm imm.toInt]
  | .slbi rs imm => [.reg rs, .imm imm.toNat]
  | .stu rd rs imm => [.reg rd, .reg rs, .imm imm.toInt]
  | .roli rd rs imm => [.reg rd, .reg rs, .imm imm.toNat]
  | .slli rd rs imm => [.reg rd, .reg rs, .imm imm.toNat]
  | .rori rd rs imm => [.reg rd, .reg rs, .imm imm.toNat]
  | .srai rd rs imm => [.reg rd, .reg rs, .imm imm.toNat]
  | .lbi rs imm => [.reg rs, .imm imm.toInt]
  | .rol rd rs rt => [.reg rd, .reg rs, .reg rt]
  | .sll rd rs rt => [.reg rd, .reg rs, .reg rt]
  | .ror rd rs rt => [.reg rd, .reg rs, .reg rt]
  | .sra rd rs rt => [.reg rd, .reg rs, .reg rt]
  | .add rd rs rt => [.reg rd, .reg rs, .reg rt]
  | .sub rd rs rt => [.reg rd, .reg rs, .reg rt]
  | .or rd rs rt => [.reg rd, .reg rs, .reg rt]
  | .and rd rs rt => [.reg rd, .reg rs, .reg rt]
  | .seq rd rs rt => [.reg rd, .reg rs, .reg rt]
  | .slt rd rs rt => [.reg rd, .reg rs, .reg rt]
  | .sle rd rs rt => [.reg rd, .reg rs, .reg rt]
  | .sco rd rs rt => [.reg rd, .reg rs, .reg rt]

/-- Every instruction whose text has these operands, their numbers cut to their fields. -/
def instrsOfOperands : List AsmOperand → List Instr
  | [] => [.halt, .nop, .rti, .ret]
  | [.reg rs] => [.siic rs]
  | [.imm v] => [.j (.ofInt 11 v), .jal (.ofInt 11 v)]
  | [.reg rs, .imm v] =>
    let imm : BitVec 8 := .ofInt 8 v
    [.jr rs imm, .jalr rs imm, .beqz rs imm, .bnez rs imm, .lbi rs imm, .slbi rs imm]
  | [.reg rd, .reg rs, .imm v] =>
    let imm : BitVec 5 := .ofInt 5 v
    [.addi rd rs imm, .subi rd rs imm, .ori rd rs imm, .andi rd rs imm, .st rd rs imm, .ld rd rs imm, .stu rd rs imm,
      .roli rd rs imm, .slli rd rs imm, .rori rd rs imm, .srai rd rs imm]
  | [.reg rd, .reg rs, .reg rt] =>
    [.rol rd rs rt, .sll rd rs rt, .ror rd rs rt, .sra rd rs rt, .add rd rs rt, .sub rd rs rt, .or rd rs rt,
      .and rd rs rt, .seq rd rs rt, .slt rd rs rt, .sle rd rs rt, .sco rd rs rt]
  | _ => []

/-- The assembler: the instruction of a mnemonic and its operands; refused if there is none of that form, or if a
number does not fit its field, or a shift amount is above 15 (R89, D28). -/
def assemble (mnemonic : String) (ops : List AsmOperand) : Option Instr :=
  (instrsOfOperands ops).find? (fun i => i.mnemonic == mnemonic && i.operands == ops && i.wellFormed)

/-- The bits of an instruction's word that the decoder reads; the others are the `x` bits of R81 and R82 and SIIC's
insn[7:0], which no instruction's meaning or syntax uses (R84; log entry 14). -/
def Instr.careMask : Instr → Word
  | .halt => 0xF800
  | .nop => 0xF800
  | .siic _ => 0xFF00
  | .rti => 0xF800
  | .j _ => 0xFFFF
  | .jr _ _ => 0xFFFF
  | .jal _ => 0xFFFF
  | .jalr _ _ => 0xFFFF
  | .addi _ _ _ => 0xFFFF
  | .subi _ _ _ => 0xFFFF
  | .ori _ _ _ => 0xFFFF
  | .andi _ _ _ => 0xFFFF
  | .beqz _ _ => 0xFFFF
  | .bnez _ _ => 0xFFFF
  | .ret => 0xF800
  | .st _ _ _ => 0xFFFF
  | .ld _ _ _ => 0xFFFF
  | .slbi _ _ => 0xFFFF
  | .stu _ _ _ => 0xFFFF
  | .roli _ _ _ => 0xFFEF
  | .slli _ _ _ => 0xFFEF
  | .rori _ _ _ => 0xFFEF
  | .srai _ _ _ => 0xFFEF
  | .lbi _ _ => 0xFFFF
  | .rol _ _ _ => 0xFFFF
  | .sll _ _ _ => 0xFFFF
  | .ror _ _ _ => 0xFFFF
  | .sra _ _ _ => 0xFFFF
  | .add _ _ _ => 0xFFFF
  | .sub _ _ _ => 0xFFFF
  | .or _ _ _ => 0xFFFF
  | .and _ _ _ => 0xFFFF
  | .seq _ _ _ => 0xFFFC
  | .slt _ _ _ => 0xFFFC
  | .sle _ _ _ => 0xFFFC
  | .sco _ _ _ => 0xFFFC

/-! ### One word as the opcode table numbers it -/

/-- The instruction read from an instruction whose bits are `w`, of which the table gives the low `nbits`: the word is
laid out in bytes as the hardware stores it (big-endian, R43) and given to the decoder. -/
def decodeTableWord (nbits w : Nat) : Option Instr :=
  let word : Word := BitVec.ofNat 16 (w % 2 ^ nbits)
  match decodeBytes .big [lowerByte .big word, higherByte .big word] with
  | .ok (i, _) => some i
  | .error _ => none

end Sys2Proof
end

