-- ==== Sys2Proof/Machine/State.lean ====
section
/-! DEFINITION. The state of the machine (10_state.md), the reasons a step stops, and the state after reset
(10_state.md R33; 70_reset_and_hazards.md R250, R251). -/

namespace Sys2Proof.Machine

/-- The eight general registers, each an ordinary 16-bit register (R20, R21). -/
structure Regs where
  r0 : Word
  r1 : Word
  r2 : Word
  r3 : Word
  r4 : Word
  r5 : Word
  r6 : Word
  r7 : Word
  deriving DecidableEq, Repr

/-- Memory: the bytes that do not read as `Config.unlistedByte`, by rising address (R31; `Memory.wf`). -/
abbrev Memory := List Host.Cell

/-- A set of byte addresses, rising (R32; `Marks.wf`). -/
abbrev Marks := List Nat

/-- The state of the machine. `params` and `image` are its launch arguments, which no step changes (log entry 1). -/
structure State where
  /-- R0 to R7 (R20). -/
  regs    : Regs
  /-- The program counter (R24). -/
  pc      : Word
  /-- The exception program counter (R28). -/
  epc     : Word
  /-- The one memory of code and data (R31). -/
  mem     : Memory
  /-- The mark that HALT sets (R30). -/
  halted  : Bool
  /-- The bytes that a store has written since reset, kept when IFETCH_COHERENCE = fault (R32, R44). -/
  written : Marks
  /-- IMAGE, the memory at reset (R251); fetch reads it when IFETCH_COHERENCE = split (R53). -/
  image   : Memory
  /-- The open parameters (00_scope.md section 5). -/
  params  : Config.Params
  deriving DecidableEq, Repr

/-- The model faults (60_exceptions.md R235). Each is safe: the model stops, with no state changed, where the source
gives the situation no meaning. UninitialisedRead is not among them (log entry 5). -/
inductive Fault where
  /-- Raised by a step that begins with an odd PC (20_memory.md R46). Safe. -/
  | misalignedFetch
  /-- Raised by a step that would fetch a byte written since reset, if IFETCH_COHERENCE = fault (R53). Safe. -/
  | fetchAfterStore
  /-- Raised by a step whose word has opcode 01111 or 11001, if UNASSIGNED_OPCODE = fault (30_encoding.md R83). Safe. -/
  | unassignedOpcode
  /-- Raised by SIIC if EXC = false (48_exception_instructions.md R211). Safe. -/
  | siicNotImplemented
  /-- Raised by LD, ST and STU at an odd effective address (42_load_store.md R135). Safe. -/
  | misalignedData
  deriving DecidableEq, Repr

/-- Why the machine has no step that is no fault. -/
inductive Refusal where
  /-- Raised by the arm of an instruction that has no meaning yet. Safe. No arm is refused. -/
  | notModelled (mnemonic : String)
  /-- Raised by a step of a machine that has executed HALT: it takes no further step (10_state.md R30). Safe
  (log entry 8). -/
  | halted
  deriving DecidableEq, Repr

/-- What an instruction or a step answers. -/
abbrev Result := Host.Outcome State Fault Refusal

/-- The state after reset of a machine launched with these parameters, register contents (which RESET_REGS leaves
unspecified, R35 treatment (a)), EPC and IMAGE (R33, R250, R251). -/
def State.launch (params : Config.Params) (regs : Regs) (epc : Word) (image : Memory) : State :=
  { regs, pc := Config.resetPc, epc, mem := image, halted := false, written := [], image, params }

/-- The machine right after reset: the spec's default parameters, nothing listed in memory, and the registers that the
spec leaves unspecified at the values of log entries 3 and 4. -/
def State.reset : State :=
  State.launch Config.Params.default
    { r0 := Config.resetRegister, r1 := Config.resetRegister, r2 := Config.resetRegister, r3 := Config.resetRegister,
      r4 := Config.resetRegister, r5 := Config.resetRegister, r6 := Config.resetRegister, r7 := Config.resetRegister }
    Config.resetEpc []

end Sys2Proof.Machine
end

