-- ==== Sys2Proof/Machine/Ops.lean ====
section
/-! DEFINITION. The named operations: registers, memory and its marks, the program counter, taking the exception and
returning from it. Every meaning is written over these. -/

namespace Sys2Proof.Machine

/-! ### General registers (10_state.md R20 to R22) -/

def Regs.get (g : Regs) : Reg → Word
  | .R0 => g.r0
  | .R1 => g.r1
  | .R2 => g.r2
  | .R3 => g.r3
  | .R4 => g.r4
  | .R5 => g.r5
  | .R6 => g.r6
  | .R7 => g.r7

def Regs.set (g : Regs) (r : Reg) (v : Word) : Regs :=
  match r with
  | .R0 => { g with r0 := v }
  | .R1 => { g with r1 := v }
  | .R2 => { g with r2 := v }
  | .R3 => { g with r3 := v }
  | .R4 => { g with r4 := v }
  | .R5 => { g with r5 := v }
  | .R6 => { g with r6 := v }
  | .R7 => { g with r7 := v }

/-- `x[r]`. -/
def State.reg (s : State) (r : Reg) : Word := s.regs.get r

/-- `x[r] <- v`; no register discards a write (R21). -/
def State.setReg (s : State) (r : Reg) (v : Word) : State := { s with regs := s.regs.set r v }

/-- The link register (R22). -/
def linkReg : Reg := .R7

/-! ### PC, EPC, halted -/

def State.setPc (s : State) (a : Word) : State := { s with pc := a }

def State.setEpc (s : State) (a : Word) : State := { s with epc := a }

/-- The mark of the end of the run (R30). -/
def State.setHalted (s : State) : State := { s with halted := true }

/-- The address of the next sequential instruction, modulo 2^16 (R27). -/
def State.nextPc (s : State) : Word := s.pc + 2

/-- The normal end of an instruction that does not assign the PC (R25). -/
def State.advance (s : State) : State := s.setPc s.nextPc

/-! ### Memory as a list of cells -/

/-- The canonical form: addresses strictly rising and in the address space (20_memory.md R40), and no cell that holds
what an unlisted address reads as. -/
abbrev Memory.wf (m : Memory) : Prop :=
  m.Pairwise (fun c d => c.1 < d.1) ∧ ∀ c ∈ m, c.1 < 65536 ∧ c.2 ≠ Config.unlistedByte

/-- One byte of a memory. -/
def Memory.read : Memory → Nat → Byte
  | [], _ => Config.unlistedByte
  | c :: m, a => if c.1 = a then c.2 else Memory.read m a

/-- A cell in front of a memory, left out if it holds what an unlisted address reads as. -/
def Memory.consCell (a : Nat) (b : Byte) (m : Memory) : Memory :=
  if b = Config.unlistedByte then m else (a, b) :: m

/-- Write one byte, keeping the canonical form. -/
def Memory.write : Memory → Nat → Byte → Memory
  | [], a, b => Memory.consCell a b []
  | c :: m, a, b =>
    if a < c.1 then Memory.consCell a b (c :: m)
    else if a = c.1 then Memory.consCell a b m
    else c :: Memory.write m a b

/-! ### The marks of written bytes (10_state.md R32) -/

/-- The canonical form of the marks: strictly rising and in the address space. -/
abbrev Marks.wf (ks : Marks) : Prop := ks.Pairwise (· < ·) ∧ ∀ k ∈ ks, k < 65536

/-- Mark one address. -/
def Marks.insert : Marks → Nat → Marks
  | [], a => [a]
  | k :: ks, a => if a < k then a :: k :: ks else if a = k then k :: ks else k :: Marks.insert ks a

/-! ### Memory accesses (20_memory.md R42 to R44) -/

/-- `Mem[a]`. -/
def State.byte (s : State) (a : Word) : Byte := s.mem.read a.toNat

/-- `Mem[a] <- b`. -/
def State.setByte (s : State) (a : Word) (b : Byte) : State := { s with mem := s.mem.write a.toNat b }

/-- Whether a store has written this byte since reset (R32). -/
def State.isWritten (s : State) (a : Word) : Bool := s.written.contains a.toNat

/-- `written[a]` is set, when IFETCH_COHERENCE = fault (R44). -/
def State.mark (s : State) (a : Word) : State :=
  match s.params.ifetch with
  | .fault => { s with written := Marks.insert s.written a.toNat }
  | .unified => s
  | .split => s

/-- `MemRead(a, 2)` at an even address (R43). -/
def State.readWord (s : State) (a : Word) : Word :=
  wordOfBytes s.params.endian (s.byte a) (s.byte (a + 1))

/-- `MemWrite(a, 2, v)` at an even address, with its marks (R44). -/
def State.writeWord (s : State) (a : Word) (v : Word) : State :=
  (((s.setByte a (lowerByte s.params.endian v)).setByte (a + 1) (higherByte s.params.endian v)).mark a).mark (a + 1)

/-- The check made before any write: an odd effective address stops the instruction with nothing changed
(42_load_store.md R135). -/
def ifAligned (ea : Word) (k : Result) : Result :=
  if ea.getLsbD 0 then .fault .misalignedData else k

/-! ### Instruction fetch's reads (20_memory.md R53) -/

/-- A byte of the image the machine was launched with (R251). -/
def State.imageByte (s : State) (a : Word) : Byte := s.image.read a.toNat

/-- The byte that a fetch reads at an address, by IFETCH_COHERENCE (R53). -/
def State.codeByte (s : State) (a : Word) : Byte :=
  match s.params.ifetch with
  | .fault => s.byte a
  | .unified => s.byte a
  | .split => s.imageByte a

/-- The word that a fetch reads at the PC, in the byte order of the machine (R43). -/
def State.codeWord (s : State) : Word :=
  wordOfBytes s.params.endian (s.codeByte s.pc) (s.codeByte (s.pc + 1))

/-! ### The exception (60_exceptions.md R222, R224) -/

/-- HANDLER: a code address, not a pointer (R222). -/
def handlerAddress : Word := 0x0002

/-- `raise IllegalOp()`: `epc <- pc + 2; pc <- 0x0002`, and nothing else (R222). -/
def State.takeIllegalOp (s : State) : State := (s.setEpc s.nextPc).setPc handlerAddress

/-- The return from the exception: `pc <- epc`, and nothing else (R224). -/
def State.returnFromException (s : State) : State := s.setPc s.epc

/-! ### How an instruction ends -/

/-- Write a result to a register and go on to the next instruction (R25). -/
def State.finish (s : State) (rd : Reg) (v : Word) : Result := .next (s.setReg rd v).advance

end Sys2Proof.Machine
end

