-- ==== Sys2Proof/Machine/Operands.lean ====
section
/-! DEFINITION. The operand forms (30_encoding.md R77, R78; 42_load_store.md R133; 43_alu_register.md R148) and the
shift and rotate primitives (00_scope.md section 7). -/

namespace Sys2Proof.Machine

/-- `sext_16` of a field of any width (R77). -/
def sext16 {n : Nat} (v : BitVec n) : Word := v.signExtend 16

/-- `zext_16` of a field of any width (R77). -/
def zext16 {n : Nat} (v : BitVec n) : Word := v.setWidth 16

/-- "I(lowest 4 bits)": `imm5[3:0]`, a shift amount 0 to 15 (R77, R118). -/
def shiftAmountImm (imm5 : BitVec 5) : BitVec 4 := imm5.extractLsb 3 0

/-- `x[Rt][3:0]`, a shift amount 0 to 15 (R148). -/
def shiftAmountReg (v : Word) : BitVec 4 := v.extractLsb 3 0

/-- `sll_16`: zeros enter at bit 0. -/
def sll16 (v : Word) (n : BitVec 4) : Word := v <<< n.toNat

/-- `sra_16`: copies of bit 15 enter at bit 15. -/
def sra16 (v : Word) (n : BitVec 4) : Word := v.sshiftRight n.toNat

/-- `rol_16`: rotate left. -/
def rol16 (v : Word) (n : BitVec 4) : Word := v.rotateLeft n.toNat

/-- `ror_16`: rotate right. -/
def ror16 (v : Word) (n : BitVec 4) : Word := v.rotateRight n.toNat

/-- The effective address of LD, ST and STU, modulo 2^16 (R133, R47). -/
def State.effAddr (s : State) (rs : Reg) (imm5 : BitVec 5) : Word := s.reg rs + sext16 imm5

/-- A target relative to the next instruction (45_branch.md R172, 47_jump.md R195). -/
def State.relTarget {n : Nat} (s : State) (disp : BitVec n) : Word := s.nextPc + sext16 disp

/-- A target relative to a register (47_jump.md R196). -/
def State.regTarget (s : State) (rs : Reg) (imm8 : BitVec 8) : Word := s.reg rs + sext16 imm8

end Sys2Proof.Machine
end

