-- ==== Sys2Proof/Machine/AluImmediate.lean ====
section
/-! DEFINITION. The I-format 1 arithmetic, logical, shift and rotate instructions (41_alu_immediate.md). -/

namespace Sys2Proof.Machine

/-- ADDI: `x[Rd] <- x[Rs] + sext_16(imm5)` (R110). -/
def execAddi (rd rs : Reg) (imm5 : BitVec 5) (s : State) : Result := s.finish rd (s.reg rs + sext16 imm5)

/-- SUBI: `x[Rd] <- sext_16(imm5) - x[Rs]`; the register is the subtrahend (R111). -/
def execSubi (rd rs : Reg) (imm5 : BitVec 5) (s : State) : Result := s.finish rd (sext16 imm5 - s.reg rs)

/-- ORI: `x[Rd] <- x[Rs] | zext_16(imm5)` (R112). -/
def execOri (rd rs : Reg) (imm5 : BitVec 5) (s : State) : Result := s.finish rd (s.reg rs ||| zext16 imm5)

/-- ANDI: `x[Rd] <- x[Rs] & zext_16(imm5)` (R113). -/
def execAndi (rd rs : Reg) (imm5 : BitVec 5) (s : State) : Result := s.finish rd (s.reg rs &&& zext16 imm5)

/-- ROLI: `x[Rd] <- rol_16(x[Rs], imm5[3:0])` (R114). -/
def execRoli (rd rs : Reg) (imm5 : BitVec 5) (s : State) : Result :=
  s.finish rd (rol16 (s.reg rs) (shiftAmountImm imm5))

/-- SLLI: `x[Rd] <- sll_16(x[Rs], imm5[3:0])` (R115). -/
def execSlli (rd rs : Reg) (imm5 : BitVec 5) (s : State) : Result :=
  s.finish rd (sll16 (s.reg rs) (shiftAmountImm imm5))

/-- RORI: `x[Rd] <- ror_16(x[Rs], imm5[3:0])` (R116). -/
def execRori (rd rs : Reg) (imm5 : BitVec 5) (s : State) : Result :=
  s.finish rd (ror16 (s.reg rs) (shiftAmountImm imm5))

/-- SRAI: `x[Rd] <- sra_16(x[Rs], imm5[3:0])` (R117). -/
def execSrai (rd rs : Reg) (imm5 : BitVec 5) (s : State) : Result :=
  s.finish rd (sra16 (s.reg rs) (shiftAmountImm imm5))

end Sys2Proof.Machine
end

