-- ==== Sys2Proof/Machine/AluRegister.lean ====
section
/-! DEFINITION. The R-format arithmetic, logical, shift and rotate instructions (43_alu_register.md). -/

namespace Sys2Proof.Machine

/-- ADD: `x[Rd] <- x[Rs] + x[Rt]` (R140). -/
def execAdd (rd rs rt : Reg) (s : State) : Result := s.finish rd (s.reg rs + s.reg rt)

/-- SUB: `x[Rd] <- x[Rt] - x[Rs]`; Rs is the subtrahend (R141). -/
def execSub (rd rs rt : Reg) (s : State) : Result := s.finish rd (s.reg rt - s.reg rs)

/-- OR: `x[Rd] <- x[Rs] | x[Rt]` (R142). -/
def execOr (rd rs rt : Reg) (s : State) : Result := s.finish rd (s.reg rs ||| s.reg rt)

/-- AND: `x[Rd] <- x[Rs] & x[Rt]` (R143). -/
def execAnd (rd rs rt : Reg) (s : State) : Result := s.finish rd (s.reg rs &&& s.reg rt)

/-- ROL: `x[Rd] <- rol_16(x[Rs], x[Rt][3:0])` (R144). -/
def execRol (rd rs rt : Reg) (s : State) : Result :=
  s.finish rd (rol16 (s.reg rs) (shiftAmountReg (s.reg rt)))

/-- SLL: `x[Rd] <- sll_16(x[Rs], x[Rt][3:0])` (R145). -/
def execSll (rd rs rt : Reg) (s : State) : Result :=
  s.finish rd (sll16 (s.reg rs) (shiftAmountReg (s.reg rt)))

/-- ROR: `x[Rd] <- ror_16(x[Rs], x[Rt][3:0])` (R146). -/
def execRor (rd rs rt : Reg) (s : State) : Result :=
  s.finish rd (ror16 (s.reg rs) (shiftAmountReg (s.reg rt)))

/-- SRA: `x[Rd] <- sra_16(x[Rs], x[Rt][3:0])` (R147). -/
def execSra (rd rs rt : Reg) (s : State) : Result :=
  s.finish rd (sra16 (s.reg rs) (shiftAmountReg (s.reg rt)))

end Sys2Proof.Machine
end

