-- ==== Sys2Proof/Machine/Flags.lean ====
section
/-! DEFINITION. The hardware has no flags (10_state.md R29): what other machines keep in flags, the set instructions
write to a general register as 0 or 1 (44_set.md R164). The conditions they compute, and those of the branches. -/

namespace Sys2Proof.Machine

/-- The whole-register value of a condition: 0x0001 or 0x0000 (R164). -/
def boolWord (b : Bool) : Word := if b then 0x0001 else 0x0000

/-- SEQ's condition: all 16 bits equal (R160). -/
def condEq (a b : Word) : Bool := a == b

/-- SLT's condition: the two's complement values compared, right for every pair (R161, R165). -/
def condLt (a b : Word) : Bool := a.slt b

/-- SLE's condition (R162, R165). -/
def condLe (a b : Word) : Bool := a.sle b

/-- SCO's condition: bit 16 of the 17-bit sum of the unsigned readings (R163). -/
def condCarryOut (a b : Word) : Bool := (a.setWidth 17 + b.setWidth 17).getLsbD 16

/-- BEQZ's condition: all 16 bits zero; BNEZ's is its negation (45_branch.md R170, R171). -/
def condZero (a : Word) : Bool := a == 0x0000

end Sys2Proof.Machine
end

