-- ==== Sys2Proof/Machine/Branch.lean ====
section
/-! DEFINITION. The conditional branches (45_branch.md). -/

namespace Sys2Proof.Machine

/-- BEQZ: the target `pc + 2 + sext_16(imm8)` if `x[Rs] = 0`, else the next instruction (R170). -/
def execBeqz (rs : Reg) (imm8 : BitVec 8) (s : State) : Result :=
  .next (if condZero (s.reg rs) then s.setPc (s.relTarget imm8) else s.advance)

/-- BNEZ: the target `pc + 2 + sext_16(imm8)` if `x[Rs] ≠ 0`, else the next instruction (R171). -/
def execBnez (rs : Reg) (imm8 : BitVec 8) (s : State) : Result :=
  .next (if condZero (s.reg rs) then s.advance else s.setPc (s.relTarget imm8))

end Sys2Proof.Machine
end

