-- ==== Sys2Proof/Machine/ExceptionInstr.lean ====
section
/-! DEFINITION. SIIC and RTI (48_exception_instructions.md). -/

namespace Sys2Proof.Machine

/-- SIIC: raise IllegalOp (R210); its register is ignored (R84). A machine without the exceptions faults (R211). -/
def execSiic (_rs : Reg) (s : State) : Result :=
  if s.params.exc then .next s.takeIllegalOp else .fault .siicNotImplemented

/-- RTI: `pc <- epc` (R213). On a machine without the exceptions it is a NOP (R212). -/
def execRti (s : State) : Result :=
  if s.params.exc then .next s.returnFromException else .next s.advance

end Sys2Proof.Machine
end

