-- ==== Sys2Proof/Machine/Jump.lean ====
section
/-! DEFINITION. The jumps, calls and the return (47_jump.md). -/

namespace Sys2Proof.Machine

/-- J: `pc <- pc + 2 + sext_16(disp11)` (R190). -/
def execJ (disp11 : BitVec 11) (s : State) : Result := .next (s.setPc (s.relTarget disp11))

/-- JR: `pc <- x[Rs] + sext_16(imm8)` (R191). -/
def execJr (rs : Reg) (imm8 : BitVec 8) (s : State) : Result := .next (s.setPc (s.regTarget rs imm8))

/-- JAL: `x[7] <- pc + 2; pc <- pc + 2 + sext_16(disp11)` (R192). -/
def execJal (disp11 : BitVec 11) (s : State) : Result :=
  .next ((s.setReg linkReg s.nextPc).setPc (s.relTarget disp11))

/-- JALR: `t <- x[Rs] + sext_16(imm8); x[7] <- pc + 2; pc <- t`, with the old R7 if Rs is R7 (R193, R197). -/
def execJalr (rs : Reg) (imm8 : BitVec 8) (s : State) : Result :=
  .next ((s.setReg linkReg s.nextPc).setPc (s.regTarget rs imm8))

/-- RET: `pc <- x[7]` (R194). -/
def execRet (s : State) : Result := .next (s.setPc (s.reg linkReg))

end Sys2Proof.Machine
end

