-- ==== Sys2Proof/Machine/LoadImmediate.lean ====
section
/-! DEFINITION. LBI and SLBI, whose field Rs is the destination (46_load_immediate.md). -/

namespace Sys2Proof.Machine

/-- LBI: `x[Rs] <- sext_16(imm8)` (R180). -/
def execLbi (rs : Reg) (imm8 : BitVec 8) (s : State) : Result := s.finish rs (sext16 imm8)

/-- SLBI: `x[Rs] <- (x[Rs] << 8) | zext_16(imm8)` (R181). -/
def execSlbi (rs : Reg) (imm8 : BitVec 8) (s : State) : Result :=
  s.finish rs (sll16 (s.reg rs) 8 ||| zext16 imm8)

end Sys2Proof.Machine
end

