-- ==== Sys2Proof/Machine/LoadStore.lean ====
section
/-! DEFINITION. ST, LD and STU (42_load_store.md). -/

namespace Sys2Proof.Machine

/-- ST: `MemWrite(ea, 2, x[Rd])` (R130). -/
def execSt (rd rs : Reg) (imm5 : BitVec 5) (s : State) : Result :=
  ifAligned (s.effAddr rs imm5) (.next (s.writeWord (s.effAddr rs imm5) (s.reg rd)).advance)

/-- LD: `x[Rd] <- MemRead(ea, 2)` (R131). -/
def execLd (rd rs : Reg) (imm5 : BitVec 5) (s : State) : Result :=
  ifAligned (s.effAddr rs imm5) (s.finish rd (s.readWord (s.effAddr rs imm5)))

/-- STU: `MemWrite(ea, 2, x[Rd]); x[Rs] <- ea`, storing the old Rd if it is Rs (R132, 00_scope.md R9). -/
def execStu (rd rs : Reg) (imm5 : BitVec 5) (s : State) : Result :=
  ifAligned (s.effAddr rs imm5)
    ((s.writeWord (s.effAddr rs imm5) (s.reg rd)).finish rs (s.effAddr rs imm5))

end Sys2Proof.Machine
end

