-- ==== Sys2Proof/Machine/SetCompare.lean ====
section
/-! DEFINITION. The set instructions (44_set.md). -/

namespace Sys2Proof.Machine

/-- SEQ: `x[Rd] <- (if x[Rs] = x[Rt] then 1 else 0)` (R160). -/
def execSeq (rd rs rt : Reg) (s : State) : Result :=
  s.finish rd (boolWord (condEq (s.reg rs) (s.reg rt)))

/-- SLT: `x[Rd] <- (if signed(x[Rs]) < signed(x[Rt]) then 1 else 0)` (R161). -/
def execSlt (rd rs rt : Reg) (s : State) : Result :=
  s.finish rd (boolWord (condLt (s.reg rs) (s.reg rt)))

/-- SLE: `x[Rd] <- (if signed(x[Rs]) <= signed(x[Rt]) then 1 else 0)` (R162). -/
def execSle (rd rs rt : Reg) (s : State) : Result :=
  s.finish rd (boolWord (condLe (s.reg rs) (s.reg rt)))

/-- SCO: `x[Rd] <- 1` if `x[Rs] + x[Rt]` has a carry out of bit 15, else 0 (R163). -/
def execSco (rd rs rt : Reg) (s : State) : Result :=
  s.finish rd (boolWord (condCarryOut (s.reg rs) (s.reg rt)))

end Sys2Proof.Machine
end

