-- ==== Sys2Proof/Machine/Special.lean ====
section
/-! DEFINITION. HALT and NOP (40_special.md). -/

namespace Sys2Proof.Machine

/-- HALT: `halted <- true; pc <- pc + 2` (R100). -/
def execHalt (s : State) : Result := .next s.setHalted.advance

/-- NOP: `pc <- pc + 2` (R101). -/
def execNop (s : State) : Result := .next s.advance

end Sys2Proof.Machine
end

