-- ==== Sys2Proof/Machine/Dispatch.lean ====
section
/-! DEFINITION. One arm per instruction: what each does to the state. -/

namespace Sys2Proof.Machine

def exec (i : Instr) (s : State) : Host.Outcome State Fault Refusal :=
  match i with
  | .halt => Sys2Proof.Machine.execHalt s
  | .nop => Sys2Proof.Machine.execNop s
  | .siic rs => Sys2Proof.Machine.execSiic rs s
  | .rti => Sys2Proof.Machine.execRti s
  | .j disp11 => Sys2Proof.Machine.execJ disp11 s
  | .jr rs imm8 => Sys2Proof.Machine.execJr rs imm8 s
  | .jal disp11 => Sys2Proof.Machine.execJal disp11 s
  | .jalr rs imm8 => Sys2Proof.Machine.execJalr rs imm8 s
  | .addi rd rs imm5 => Sys2Proof.Machine.execAddi rd rs imm5 s
  | .subi rd rs imm5 => Sys2Proof.Machine.execSubi rd rs imm5 s
  | .ori rd rs imm5 => Sys2Proof.Machine.execOri rd rs imm5 s
  | .andi rd rs imm5 => Sys2Proof.Machine.execAndi rd rs imm5 s
  | .beqz rs imm8 => Sys2Proof.Machine.execBeqz rs imm8 s
  | .bnez rs imm8 => Sys2Proof.Machine.execBnez rs imm8 s
  | .ret => Sys2Proof.Machine.execRet s
  | .st rd rs imm5 => Sys2Proof.Machine.execSt rd rs imm5 s
  | .ld rd rs imm5 => Sys2Proof.Machine.execLd rd rs imm5 s
  | .slbi rs imm8 => Sys2Proof.Machine.execSlbi rs imm8 s
  | .stu rd rs imm5 => Sys2Proof.Machine.execStu rd rs imm5 s
  | .roli rd rs imm5 => Sys2Proof.Machine.execRoli rd rs imm5 s
  | .slli rd rs imm5 => Sys2Proof.Machine.execSlli rd rs imm5 s
  | .rori rd rs imm5 => Sys2Proof.Machine.execRori rd rs imm5 s
  | .srai rd rs imm5 => Sys2Proof.Machine.execSrai rd rs imm5 s
  | .lbi rs imm8 => Sys2Proof.Machine.execLbi rs imm8 s
  | .rol rd rs rt => Sys2Proof.Machine.execRol rd rs rt s
  | .sll rd rs rt => Sys2Proof.Machine.execSll rd rs rt s
  | .ror rd rs rt => Sys2Proof.Machine.execRor rd rs rt s
  | .sra rd rs rt => Sys2Proof.Machine.execSra rd rs rt s
  | .add rd rs rt => Sys2Proof.Machine.execAdd rd rs rt s
  | .sub rd rs rt => Sys2Proof.Machine.execSub rd rs rt s
  | .or rd rs rt => Sys2Proof.Machine.execOr rd rs rt s
  | .and rd rs rt => Sys2Proof.Machine.execAnd rd rs rt s
  | .seq rd rs rt => Sys2Proof.Machine.execSeq rd rs rt s
  | .slt rd rs rt => Sys2Proof.Machine.execSlt rd rs rt s
  | .sle rd rs rt => Sys2Proof.Machine.execSle rd rs rt s
  | .sco rd rs rt => Sys2Proof.Machine.execSco rd rs rt s

end Sys2Proof.Machine
end

