-- ==== Sys2Proof/Machine/Fetch.lean ====
section
/-! DEFINITION. Fetching and decoding the instruction at the PC, with the model faults of the fetch and of the decoder
in the spec's order (60_exceptions.md R227), and placing a word where the next fetch reads it. -/

namespace Sys2Proof.Machine

/-- The word of the next instruction, or the fault that keeps it from being read: (1) an odd PC (20_memory.md R46),
(2) a byte that a store has written, if IFETCH_COHERENCE = fault (R53). -/
def State.fetchWord (s : State) : Except Fault Word :=
  if s.pc.getLsbD 0 then .error .misalignedFetch
  else if s.params.ifetch = .fault ∧ (s.isWritten s.pc ∨ s.isWritten (s.pc + 1)) then .error .fetchAfterStore
  else .ok s.codeWord

/-- The instruction of a fetched word; an unassigned opcode faults, or acts as SIIC, by UNASSIGNED_OPCODE
(30_encoding.md R83; with EXC = false SIIC itself faults, log entry 9). -/
def instrOfWord (p : Config.Params) (w : Word) : Except Fault Instr :=
  match decodeWord w with
  | .ok i => .ok i
  | .error _ =>
    match p.unassigned with
    | .fault => .error .unassignedOpcode
    | .illegalop => .ok (.siic (rsField w))

/-- The next instruction, or the fault of its fetch or decoding. -/
def State.fetchInstr (s : State) : Except Fault Instr :=
  match s.fetchWord with
  | .ok w => instrOfWord s.params w
  | .error f => .error f

/-- Write one word to a memory as the machine lays it out. -/
def Memory.writeWord (m : Memory) (e : Config.Endian) (a : Word) (w : Word) : Memory :=
  Memory.write (Memory.write m a.toNat (lowerByte e w)) (a + 1).toNat (higherByte e w)

/-- Load one instruction word from outside the machine where its next fetch reads it, as the host loads IMAGE (R251):
in memory and in the image, unmarked, at the PC made even, with the machine running (log entry 12). -/
def State.placeInstr (s : State) (w : Word) : State :=
  let a : Word := s.pc &&& 0xFFFE#16
  { s with
    pc := a
    halted := false
    mem := Memory.writeWord s.mem s.params.endian a w
    image := Memory.writeWord s.image s.params.endian a w
    written := s.written.filter (fun k => k ≠ a.toNat ∧ k ≠ (a + 1).toNat) }

end Sys2Proof.Machine
end

