-- ==== Sys2Proof/Machine/Step.lean ====
section
/-! DEFINITION. One step: fetch the word at the PC, decode it, execute it (00_scope.md R8). -/

namespace Sys2Proof.Machine

/-- One step. A halted machine takes none (10_state.md R30; log entry 8). -/
def step (s : State) : Host.Outcome State Fault Refusal :=
  if s.halted then .refused .halted
  else
    match s.fetchInstr with
    | .ok i => exec i s
    | .error f => .fault f

/-- `s` with the instruction word `w`, of which the low `nbits` bits count, placed where the next step fetches it. -/
def State.withFetchWord (s : State) (nbits w : Nat) : State :=
  s.placeInstr (BitVec.ofNat 16 (w % 2 ^ nbits))

end Sys2Proof.Machine
end

