-- ==== Sys2Proof/Safety.lean ====
section
/-! DEFINITION. The terms the claims are stated in: what an instruction may change, which registers it names
(10_state.md R23), the invariant of the machine, runs and their end (70_reset_and_hazards.md R257), and the two
relations between machines whose parameters differ (20_memory.md R53, R56). -/

namespace Sys2Proof.Machine

/-! ### What stays as it was -/

/-- Every general register outside `rs` holds what it held. -/
def RegsUnchangedBut (rs : List Reg) (s t : State) : Prop := ∀ r, r ∉ rs → t.reg r = s.reg r

/-- Every byte of memory reads as before, and so does every mark of a written byte. -/
def MemoryUnchanged (s t : State) : Prop := (∀ a, t.byte a = s.byte a) ∧ ∀ a, t.isWritten a = s.isWritten a

/-- Every byte of memory but the two at `ea` and `ea + 1` reads as before, and so does every mark but theirs. -/
def MemoryUnchangedBut (ea : Word) (s t : State) : Prop :=
  ∀ a, a ≠ ea → a ≠ ea + 1 → t.byte a = s.byte a ∧ t.isWritten a = s.isWritten a

/-- The launch arguments are the same: the parameters and every byte of the image. -/
def LaunchUnchanged (s t : State) : Prop := t.params = s.params ∧ ∀ a, t.imageByte a = s.imageByte a

/-- The frame of an instruction that writes the registers `rs` and the PC and nothing else. -/
structure OnlyRegsChanged (rs : List Reg) (s t : State) : Prop where
  regs   : RegsUnchangedBut rs s t
  epc    : t.epc = s.epc
  halted : t.halted = s.halted
  memory : MemoryUnchanged s t
  launch : LaunchUnchanged s t

/-- The frame of an instruction that writes the registers `rs`, the PC and the two bytes at `ea`. -/
structure OnlyRegsAndDatumChanged (rs : List Reg) (ea : Word) (s t : State) : Prop where
  regs   : RegsUnchangedBut rs s t
  epc    : t.epc = s.epc
  halted : t.halted = s.halted
  memory : MemoryUnchangedBut ea s t
  launch : LaunchUnchanged s t

/-- `t` is `s` with the value `v` in `rd` and the PC at the next instruction: all that most instructions do. -/
structure WritesResult (rd : Reg) (v : Word) (s t : State) : Prop where
  result : t.reg rd = v
  pc     : t.pc = s.pc + 2
  frame  : OnlyRegsChanged [rd] s t

/-- An odd PC stops the next step, not the instruction that made it (10_state.md R26). -/
def OddPcStopsNextStep (t : State) : Prop :=
  t.halted = false → t.pc.getLsbD 0 = true → step t = .fault .misalignedFetch

/-- The fetch would read a byte that a store has written, and IFETCH_COHERENCE = fault (20_memory.md R53). -/
def State.FetchesStored (s : State) : Prop :=
  s.params.ifetch = .fault ∧ (s.isWritten s.pc = true ∨ s.isWritten (s.pc + 1) = true)

/-- A running machine whose fetch meets no fault (60_exceptions.md R227, (1) and (2)). -/
structure State.CanFetch (s : State) : Prop where
  running : s.halted = false
  even    : s.pc.getLsbD 0 = false
  clean   : ¬ s.FetchesStored

/-- Opcode 01111 or 11001 (30_encoding.md R83). -/
def UnassignedWord (w : Word) : Prop := w.extractLsb 15 11 = 0b01111#5 ∨ w.extractLsb 15 11 = 0b11001#5

/-! ### The registers of an instruction (10_state.md R23) -/

/-- The general registers that an instruction reads. -/
def readsRegs : Instr → List Reg
  | .halt => []
  | .nop => []
  | .siic _ => []
  | .rti => []
  | .j _ => []
  | .jr rs _ => [rs]
  | .jal _ => []
  | .jalr rs _ => [rs]
  | .addi _ rs _ => [rs]
  | .subi _ rs _ => [rs]
  | .ori _ rs _ => [rs]
  | .andi _ rs _ => [rs]
  | .beqz rs _ => [rs]
  | .bnez rs _ => [rs]
  | .ret => [.R7]
  | .st rd rs _ => [rs, rd]
  | .ld _ rs _ => [rs]
  | .slbi rs _ => [rs]
  | .stu rd rs _ => [rs, rd]
  | .roli _ rs _ => [rs]
  | .slli _ rs _ => [rs]
  | .rori _ rs _ => [rs]
  | .srai _ rs _ => [rs]
  | .lbi _ _ => []
  | .rol _ rs rt => [rs, rt]
  | .sll _ rs rt => [rs, rt]
  | .ror _ rs rt => [rs, rt]
  | .sra _ rs rt => [rs, rt]
  | .add _ rs rt => [rs, rt]
  | .sub _ rs rt => [rs, rt]
  | .or _ rs rt => [rs, rt]
  | .and _ rs rt => [rs, rt]
  | .seq _ rs rt => [rs, rt]
  | .slt _ rs rt => [rs, rt]
  | .sle _ rs rt => [rs, rt]
  | .sco _ rs rt => [rs, rt]

/-- The general registers that an instruction writes. -/
def writesRegs : Instr → List Reg
  | .halt => []
  | .nop => []
  | .siic _ => []
  | .rti => []
  | .j _ => []
  | .jr _ _ => []
  | .jal _ => [.R7]
  | .jalr _ _ => [.R7]
  | .addi rd _ _ => [rd]
  | .subi rd _ _ => [rd]
  | .ori rd _ _ => [rd]
  | .andi rd _ _ => [rd]
  | .beqz _ _ => []
  | .bnez _ _ => []
  | .ret => []
  | .st _ _ _ => []
  | .ld rd _ _ => [rd]
  | .slbi rs _ => [rs]
  | .stu _ rs _ => [rs]
  | .roli rd _ _ => [rd]
  | .slli rd _ _ => [rd]
  | .rori rd _ _ => [rd]
  | .srai rd _ _ => [rd]
  | .lbi rs _ => [rs]
  | .rol rd _ _ => [rd]
  | .sll rd _ _ => [rd]
  | .ror rd _ _ => [rd]
  | .sra rd _ _ => [rd]
  | .add rd _ _ => [rd]
  | .sub rd _ _ => [rd]
  | .or rd _ _ => [rd]
  | .and rd _ _ => [rd]
  | .seq rd _ _ => [rd]
  | .slt rd _ _ => [rd]
  | .sle rd _ _ => [rd]
  | .sco rd _ _ => [rd]

/-- The effective address of an instruction that accesses data memory: LD, ST and STU (20_memory.md R41). -/
def dataAddress (s : State) : Instr → Option Word
  | .st _ rs imm5 => some (s.effAddr rs imm5)
  | .ld _ rs imm5 => some (s.effAddr rs imm5)
  | .stu _ rs imm5 => some (s.effAddr rs imm5)
  | _ => none

/-! ### The invariant -/

/-- What holds at every launch with a canonical image and is kept by every step. -/
structure State.Inv (s : State) : Prop where
  /-- Memory, image and marks are in their canonical forms. -/
  mem_wf     : Memory.wf s.mem
  image_wf   : Memory.wf s.image
  written_wf : Marks.wf s.written
  /-- A store marks both bytes of an aligned pair (R44, R45). -/
  written_in_pairs : ∀ a, s.isWritten (a ^^^ 1) = s.isWritten a
  /-- A byte that no store has written is as it was loaded (R50), while the marks are kept. -/
  unwritten_as_loaded : s.params.ifetch = .fault → ∀ a, s.isWritten a = false → s.byte a = s.imageByte a
  /-- The marks are kept only when IFETCH_COHERENCE = fault (R32). -/
  written_only_when_kept : s.params.ifetch ≠ .fault → s.written = []

/-! ### Runs -/

/-- `t` is reached from `s` by some number of steps, none of which faults. -/
inductive Runs : State → State → Prop where
  | refl (s : State) : Runs s s
  | snoc {s t u : State} : Runs s t → step t = .next u → Runs s u

/-- The only final states: a HALT has completed (R257). -/
def State.Final (s : State) : Prop := s.halted = true

/-- A run that ends as the spec says a run ends: with a HALT, in the state `t`, whose memory is its result (R55). -/
def EndsIn (s t : State) : Prop := Runs s t ∧ t.Final

/-- A safe start: no run from it meets a model fault (R11, R235). -/
def Safe (s : State) : Prop := ∀ t, Runs s t → ∀ f, step t ≠ .fault f

/-! ### Machines that differ in a parameter -/

/-- Two machines that agree on everything but IFETCH_COHERENCE and the marks that only its value `fault` keeps. -/
structure SameButCoherence (s t : State) : Prop where
  regs   : t.regs = s.regs
  pc     : t.pc = s.pc
  epc    : t.epc = s.epc
  halted : t.halted = s.halted
  memory : ∀ a, t.byte a = s.byte a
  image  : ∀ a, t.imageByte a = s.imageByte a
  params : t.params = { s.params with ifetch := t.params.ifetch }

/-- The other byte order. -/
def otherEndian : Config.Endian → Config.Endian
  | .big => .little
  | .little => .big

/-- Two machines of opposite byte order whose memories hold the same 16-bit data at every even address, and which agree
on everything else. -/
structure ByteSwapped (s t : State) : Prop where
  regs    : t.regs = s.regs
  pc      : t.pc = s.pc
  epc     : t.epc = s.epc
  halted  : t.halted = s.halted
  memory  : ∀ a, t.byte a = s.byte (a ^^^ 1)
  image   : ∀ a, t.imageByte a = s.imageByte (a ^^^ 1)
  written : ∀ a, t.isWritten a = s.isWritten a
  params  : t.params = { s.params with endian := otherEndian s.params.endian }

/-- Two answers of a step that agree: next states in a relation, or the same fault or refusal. -/
def Agree (R : State → State → Prop) : Result → Result → Prop
  | .next s, .next t => R s t
  | .fault f, .fault g => f = g
  | .refused r, .refused q => r = q
  | _, _ => False

end Sys2Proof.Machine
end

