-- ==== Sys2Proof/Certificates/Slice0/Obligations.lean ====
section
/-! DEFINITION. The statements for the provers, each about every state and operand it names. A rule cited as stated is
quoted in OBLIGATIONS.json; what rests on a decision of the spec or of this model says so in its docstring. -/

open Sys2Proof Sys2Proof.Machine

/-- Sixteen words, one or two of every format and family, written bit by bit from the patterns of 30_encoding.md,
decode to the instruction the spec says; the two unassigned opcodes decode to none. (30_encoding.md section 4
(the opcode map), 95_test_vectors.md section 2.11.) -/
def Obligations.SpecWordsDecode : Prop :=
  decodeWord 0b00000_000_000_000_00 = .ok .halt ∧
  decodeWord 0b00001_101_010_110_10 = .ok .nop ∧
  decodeWord 0b00010_101_101_001_01 = .ok (.siic .R5) ∧
  decodeWord 0b00011_111_111_111_11 = .ok .rti ∧
  decodeWord 0b00100_10101101011 = .ok (.j (-661)) ∧
  decodeWord 0b00111_101_01101011 = .ok (.jalr .R5 107) ∧
  decodeWord 0b01000_001_010_11111 = .ok (.addi .R2 .R1 (-1)) ∧
  decodeWord 0b01100_001_11111010 = .ok (.beqz .R1 (-6)) ∧
  decodeWord 0b01110_111_111_111_11 = .ok .ret ∧
  decodeWord 0b10011_001_010_11110 = .ok (.stu .R2 .R1 (-2)) ∧
  decodeWord 0b10111_001_010_11111 = .ok (.srai .R2 .R1 15) ∧
  decodeWord 0b11000_001_10000000 = .ok (.lbi .R1 (-128)) ∧
  decodeWord 0b11010_001_010_011_11 = .ok (.sra .R3 .R1 .R2) ∧
  decodeWord 0b11011_001_010_011_01 = .ok (.sub .R3 .R1 .R2) ∧
  decodeWord 0b11100_001_001_011_11 = .ok (.seq .R3 .R1 .R1) ∧
  decodeWord 0b11111_001_010_011_00 = .ok (.sco .R3 .R1 .R2) ∧
  decodeWord 0b01111_101_011_010_11 = .error (.unassignedOpcode 0b01111) ∧
  decodeWord 0b11001_111_111_111_11 = .error (.unassignedOpcode 0b11001)

/-- For every well-formed instruction with every operand value, either byte order and any bytes after it,
decodeBytes of its encoded bytes followed by those bytes is the instruction and the bytes after it.
(30_encoding.md sections 2 to 4, 20_memory.md section 3 (byte order).) -/
def Obligations.DecodeOfEncodeIsTheInstruction : Prop :=
  ∀ (e : Config.Endian) (i : Instr) (rest : List Byte), i.wellFormed = true →
    decodeBytes e (encodeBytes e i ++ rest) = .ok (i, rest)

/-- If a word decodes to i then i is well-formed, the word with i's ignored bits cleared is encode i, and every word
that agrees with it on the other bits decodes to i as well. That ignored bits are ignored is decision D10 of the
spec; that SIIC keeps insn[10:8] as its dummy operand is log entry 14, that a shift immediate drops insn[4] is
log entry 13. (30_encoding.md section 5 (don't-care bits), 92_eei_decisions.md D10, D11.) -/
def Obligations.DecodedWordReencodesUpToIgnoredBits : Prop :=
  ∀ (w : Word) (i : Instr), decodeWord w = .ok i →
    i.wellFormed = true ∧ encode i = w &&& i.careMask ∧
    ∀ w' : Word, w' &&& i.careMask = w &&& i.careMask → decodeWord w' = .ok i

/-- A word that decodes to i matches exactly one row of the match/mask table, the one with i's mnemonic; a word
decodes to no instruction exactly when its opcode is 01111 or 11001, and then it matches no row. (30_encoding.md
section 5 (R85 is derived there), 92_eei_decisions.md D9.) -/
def Obligations.EveryWordMatchesOneRowOrIsUnassigned : Prop :=
  ∀ w : Word,
    (∀ i, decodeWord w = .ok i → (opcodeTable.filter (·.fits w)).map (·.mnemonic) = [i.mnemonic]) ∧
    (∀ r, decodeWord w = .error r → r = .unassignedOpcode (w.extractLsb 15 11) ∧ UnassignedWord w ∧
      opcodeTable.filter (·.fits w) = []) ∧
    (UnassignedWord w → ∃ r, decodeWord w = .error r)

/-- For every mnemonic and list of operands, assemble answers i exactly when i is well-formed, has that mnemonic and
has those operands in the order of its text, immediates at their extended values; so it refuses every number
outside the range of its field. That it refuses is decision D28 of the spec. (30_encoding.md section 6
(assembler syntax), 92_eei_decisions.md D24, D28.) -/
def Obligations.AssemblerGivesExactlyTheInstructionOfItsText : Prop :=
  ∀ (mnemonic : String) (ops : List AsmOperand) (i : Instr),
    assemble mnemonic ops = some i ↔ i.wellFormed = true ∧ i.mnemonic = mnemonic ∧ i.operands = ops

/-- For a running machine with an even PC that would not fetch a stored-to byte under IFETCH_COHERENCE = fault: if
the two bytes at the PC (of memory, or of the image when IFETCH_COHERENCE = split) decode to i in the machine's
byte order, then step s = exec i s. The step adds nothing around exec. (00_scope.md section 6 (execution model),
20_memory.md section 7, 92_eei_decisions.md D8.) -/
def Obligations.StepRunsTheDecodedInstruction : Prop :=
  ∀ (s : State) (i : Instr), s.CanFetch →
    (s.params.ifetch ≠ .split → decodeBytes s.params.endian [s.byte s.pc, s.byte (s.pc + 1)] = .ok (i, []) →
      step s = exec i s) ∧
    (s.params.ifetch = .split → decodeBytes s.params.endian [s.imageByte s.pc, s.imageByte (s.pc + 1)] = .ok (i, []) →
      step s = exec i s)

/-- For a machine that can fetch and whose next word has opcode 01111 or 11001: with UNASSIGNED_OPCODE = fault the
step faults UnassignedOpcode; with illegalop the step is that of SIIC, whatever its register. Decision D9 of the
spec. (30_encoding.md section 5 (unassigned opcodes), 92_eei_decisions.md D9.) -/
def Obligations.UnassignedOpcodeFaultsOrActsAsSiic : Prop :=
  ∀ s : State, s.CanFetch → UnassignedWord s.codeWord →
    (s.params.unassigned = .fault → step s = .fault .unassignedOpcode) ∧
    (s.params.unassigned = .illegalop → ∀ rs, step s = exec (.siic rs) s)

/-- For every state: a step is refused exactly when the machine is halted (log entry 8 chooses to say 'no further
step' by a refusal); it faults MisalignedFetch, FetchAfterStore, UnassignedOpcode, SiicNotImplemented or
MisalignedData exactly under the condition of R235, each checked after the ones before it as R227 orders, but
for one case that R235 does not name: that an unassigned opcode under illegalop with EXC = false faults
SiicNotImplemented is the model's deduction from R83 and R211 (log entry 9, DEDUCED). UninitialisedRead is not
among them, by the model's choice of treatment (a) of R35 (log entry 5). (60_exceptions.md section 5 (R227 and
R235 are decisions there), 10_state.md section 7, 92_eei_decisions.md D6, D7, D8, D9, D29.) -/
def Obligations.StepStopsExactlyWhereTheSpecSays : Prop :=
  ∀ s : State,
    (∀ r, step s = .refused r ↔ s.halted = true ∧ r = .halted) ∧
    (step s = .fault .misalignedFetch ↔ s.halted = false ∧ s.pc.getLsbD 0 = true) ∧
    (step s = .fault .fetchAfterStore ↔ s.halted = false ∧ s.pc.getLsbD 0 = false ∧ s.FetchesStored) ∧
    (step s = .fault .unassignedOpcode ↔
      s.CanFetch ∧ UnassignedWord s.codeWord ∧ s.params.unassigned = .fault) ∧
    (step s = .fault .siicNotImplemented ↔
      s.CanFetch ∧ s.params.exc = false ∧
        (s.codeWord.extractLsb 15 11 = 0b00010#5 ∨
          (UnassignedWord s.codeWord ∧ s.params.unassigned = .illegalop))) ∧
    (step s = .fault .misalignedData ↔
      s.CanFetch ∧ ∃ i ea, decodeWord s.codeWord = .ok i ∧ dataAddress s i = some ea ∧ ea.getLsbD 0 = true)

/-- For every state with canonical memory and image, and every word that decodes to i: step runs exactly i on the
state with the word loaded, and decodeTableWord reads i from it. How a word is loaded is log entry 12.
(70_reset_and_hazards.md section 1 (the memory image), 30_encoding.md section 1.) -/
def Obligations.LoadedWordIsTheNextInstruction : Prop :=
  ∀ (s : State) (w : Word) (i : Instr), s.Inv → decodeWord w = .ok i →
    step (s.withFetchWord 16 w.toNat) = exec i (s.withFetchWord 16 w.toNat) ∧
    decodeTableWord 16 w.toNat = some i

/-- For every choice of parameters, register contents, EPC and image: the launched state has pc = 0x0000, halted =
false, no written mark, every byte of memory equal to the image's, and the given registers, EPC and parameters.
State.reset is that launch, by the model's choice, with the defaults of the spec's parameter table (log entry
2), zero registers (log entry 3), zero EPC (log entry 4) and an image of zero bytes (log entries 6, 7).
(10_state.md section 8 (R33, decisions D13, D14, D15), 70_reset_and_hazards.md section 1, 00_scope.md section 5
(the parameter table).) -/
def Obligations.LaunchIsTheSpecsReset : Prop :=
  (∀ (p : Config.Params) (g : Regs) (e : Word) (m : Memory),
    (State.launch p g e m).pc = 0x0000 ∧ (State.launch p g e m).halted = false ∧
    (∀ a, (State.launch p g e m).isWritten a = false) ∧
    (∀ a, (State.launch p g e m).byte a = m.read a.toNat) ∧
    (∀ a, (State.launch p g e m).imageByte a = m.read a.toNat) ∧
    (State.launch p g e m).regs = g ∧ (State.launch p g e m).epc = e ∧ (State.launch p g e m).params = p) ∧
  State.reset.params = ⟨.big, .fault, .fault, true⟩ ∧ State.reset.pc = 0x0000 ∧ State.reset.halted = false ∧
  (∀ r, State.reset.reg r = 0x0000) ∧ State.reset.epc = 0x0000 ∧ (∀ a, State.reset.byte a = 0x00) ∧
  (∀ a, State.reset.imageByte a = 0x00) ∧ (∀ a, State.reset.isWritten a = false) ∧
  State.reset = State.launch State.reset.params State.reset.regs State.reset.epc State.reset.image

/-- For every choice of parameters, register contents, EPC and canonical image the launched state meets State.Inv,
and so does State.reset. (10_state.md section 8, 20_memory.md section 1.) -/
def Obligations.LaunchMeetsTheInvariant : Prop :=
  (∀ (p : Config.Params) (g : Regs) (e : Word) (m : Memory), Memory.wf m → (State.launch p g e m).Inv) ∧
  State.reset.Inv

/-- For every state s that meets State.Inv, if step s answers a next state then that state meets it: memory, image
and marks keep their canonical forms, marks come in aligned pairs, a byte not marked written still reads as it
was loaded while marks are kept, and no mark is made otherwise. (20_memory.md sections 1, 3, 6 and 7,
10_state.md section 7 (R30, R32).) -/
def Obligations.StepKeepsTheInvariant : Prop :=
  ∀ s t : State, s.Inv → step s = .next t → t.Inv

/-- If step s answers next t, then t has the parameters and the image of s, and every byte marked written in s is
marked in t. (10_state.md section 7 (R32), 00_scope.md section 5, 92_eei_decisions.md D8.) -/
def Obligations.LaunchArgumentsStayAndMarksAreNeverCleared : Prop :=
  ∀ s t : State, step s = .next t →
    t.params = s.params ∧ t.image = s.image ∧ ∀ a, s.isWritten a = true → t.isWritten a = true

/-- For every instruction and state: EPC after it is pc + 2 for SIIC and unchanged for every other instruction; for
every instruction but RTI with EXC = true, changing EPC beforehand changes nothing of the answer but EPC itself
(which SIIC overwrites); RTI with EXC = true sets the PC to EPC. With EXC = false no instruction reads or writes
it. (R28.) -/
def Obligations.EpcWrittenOnlyBySiicReadOnlyByRti : Prop :=
  ∀ (i : Instr) (s : State),
    (∀ t, exec i s = .next t → t.epc = match i with | .siic _ => s.pc + 2 | _ => s.epc) ∧
    (∀ v, (i ≠ .rti ∨ s.params.exc = false) →
      exec i (s.setEpc v) = match exec i s with
        | .next t => .next (match i with | .siic _ => t | _ => t.setEpc v)
        | .fault f => .fault f
        | .refused r => .refused r) ∧
    (s.params.exc = true → ∃ t, exec .rti s = .next t ∧ t.pc = s.epc) ∧
    (∀ t, s.params.exc = false → exec i s = .next t → t.epc = s.epc)

/-- For every instruction and state: a register outside the instruction's list of written registers holds what it
held; and changing a register outside its list of read registers changes nothing of the answer but that register
itself (nothing at all if the instruction overwrites it). (10_state.md section 1 (the table of R23, derived
there).) -/
def Obligations.InstructionTouchesOnlyItsListedRegisters : Prop :=
  ∀ (i : Instr) (s : State),
    (∀ t, exec i s = .next t → RegsUnchangedBut (writesRegs i) s t) ∧
    (∀ r v, r ∉ readsRegs i →
      exec i (s.setReg r v) = match exec i s with
        | .next t => .next (if r ∈ writesRegs i then t else t.setReg r v)
        | .fault f => .fault f
        | .refused q => .refused q)

/-- For every instruction and state, if exec answers next t then t.pc is PC + 2 + displacement for J and JAL, Rs +
immediate for JR and JALR, PC + 2 + immediate for a taken branch, R7 for RET, EPC for RTI with EXC, 0x0002 for
SIIC, and PC + 2 for every other instruction, an untaken branch and HALT among them. That JALR R7 goes by the R7
it had before it is the spec's decision D19 (log entry 17). (10_state.md section 2 (R25), 47_jump.md (JALR),
92_eei_decisions.md D19.) -/
def Obligations.EveryInstructionSetsThePcByItsRule : Prop :=
  ∀ (i : Instr) (s t : State), exec i s = .next t →
    t.pc = match i with
      | .j d => s.pc + 2 + d.signExtend 16
      | .jal d => s.pc + 2 + d.signExtend 16
      | .jr rs imm => s.reg rs + imm.signExtend 16
      | .jalr rs imm => s.reg rs + imm.signExtend 16
      | .beqz rs imm => if s.reg rs = 0 then s.pc + 2 + imm.signExtend 16 else s.pc + 2
      | .bnez rs imm => if s.reg rs ≠ 0 then s.pc + 2 + imm.signExtend 16 else s.pc + 2
      | .ret => s.reg .R7
      | .rti => if s.params.exc = true then s.epc else s.pc + 2
      | .siic _ => 0x0002
      | _ => s.pc + 2

/-- For every instruction and every state of the invariant, if exec answers next t: after ST and STU every byte and
mark but those at the effective address and the next reads as before; after every other instruction every byte
and mark does; and the image is the same. (20_memory.md sections 1 and 2 (R41 derived, R48 decision D30).) -/
def Obligations.OnlyStoresWriteMemory : Prop :=
  ∀ (i : Instr) (s t : State), s.Inv → exec i s = .next t →
    LaunchUnchanged s t ∧
    match i with
    | .st _ rs imm => MemoryUnchangedBut (s.effAddr rs imm) s t
    | .stu _ rs imm => MemoryUnchangedBut (s.effAddr rs imm) s t
    | _ => MemoryUnchanged s t

/-- If exec i s answers next t then t is halted exactly when s was or i is HALT; if step s answers next t then s was
not halted, and t is halted exactly when the instruction fetched was HALT; no step of a halted machine answers a
next state. (10_state.md section 7 (R30, derived there), 70_reset_and_hazards.md section 3.) -/
def Obligations.OnlyHaltSetsHaltedAndNothingFollows : Prop :=
  (∀ (i : Instr) (s t : State), exec i s = .next t → (t.halted = true ↔ s.halted = true ∨ i = .halt)) ∧
  (∀ s t : State, step s = .next t →
    s.halted = false ∧ (t.halted = true ↔ decodeWord s.codeWord = .ok .halt)) ∧
  (∀ s t u : State, Runs s t → t.Final → step t ≠ .next u)

/-- Every word with opcode 00000 is HALT. HALT answers a next state that is halted, whose PC is PC + 2, with every
register, EPC, byte of memory, mark and launch argument as before, and from which there is no further step.
(R100.) -/
def Obligations.HaltCompletes : Prop :=
  (∀ w : Word, w.extractLsb 15 11 = 0b00000#5 → decodeWord w = .ok .halt) ∧
  ∀ s : State, ∃ t, exec .halt s = .next t ∧ t.halted = true ∧ t.pc = s.pc + 2 ∧
    RegsUnchangedBut [] s t ∧ t.epc = s.epc ∧ MemoryUnchanged s t ∧ LaunchUnchanged s t ∧
    ∀ u, step t ≠ .next u

/-- Every word with opcode 00001 is NOP. NOP answers a next state whose PC is PC + 2, with every register, EPC, the
halted mark, memory and the launch arguments as before. (R101.) -/
def Obligations.NopOnlyAdvances : Prop :=
  (∀ w : Word, w.extractLsb 15 11 = 0b00001#5 → decodeWord w = .ok .nop) ∧
  ∀ s : State, ∃ t, exec .nop s = .next t ∧ t.pc = s.pc + 2 ∧ OnlyRegsChanged [] s t

/-- Words with opcode 01000 are ADDI and with 01001 SUBI, with Rs = insn[10:8], Rd = insn[7:5], imm5 = insn[4:0].
ADDI writes to Rd the sum of the signed values of Rs and the immediate, SUBI the immediate minus Rs, modulo
2^16. In each case the answer is a next state with that value in Rd, the PC at PC + 2, and every other register,
EPC, the halted mark, every byte of memory and mark and the launch arguments as before. (R110, R111.) -/
def Obligations.AddiSubiResult : Prop :=
  (∀ w : Word, w.extractLsb 15 11 = 0b01000#5 →
    decodeWord w = .ok (.addi (Reg.ofBits (w.extractLsb 7 5)) (Reg.ofBits (w.extractLsb 10 8)) (w.extractLsb 4 0))) ∧
  (∀ w : Word, w.extractLsb 15 11 = 0b01001#5 →
    decodeWord w = .ok (.subi (Reg.ofBits (w.extractLsb 7 5)) (Reg.ofBits (w.extractLsb 10 8)) (w.extractLsb 4 0))) ∧
  (∀ (rd rs : Reg) (imm5 : BitVec 5) (s : State), ∃ t, exec (.addi rd rs imm5) s = .next t ∧
    WritesResult rd (BitVec.ofInt 16 ((s.reg rs).toInt + imm5.toInt)) s t) ∧
  (∀ (rd rs : Reg) (imm5 : BitVec 5) (s : State), ∃ t, exec (.subi rd rs imm5) s = .next t ∧
    WritesResult rd (BitVec.ofInt 16 (imm5.toInt - (s.reg rs).toInt)) s t)

/-- Words with opcode 01010 are ORI and with 01011 ANDI. Bit k of the value written to Rd is bit k of Rs or (ORI),
and (ANDI), bit k of the immediate for k below 5; for k of 5 and more it is bit k of Rs (ORI) or 0 (ANDI). In
each case the answer is a next state with that value in Rd, the PC at PC + 2, and every other register, EPC, the
halted mark, every byte of memory and mark and the launch arguments as before. (R112, R113.) -/
def Obligations.OriAndiResult : Prop :=
  (∀ w : Word, w.extractLsb 15 11 = 0b01010#5 →
    decodeWord w = .ok (.ori (Reg.ofBits (w.extractLsb 7 5)) (Reg.ofBits (w.extractLsb 10 8)) (w.extractLsb 4 0))) ∧
  (∀ w : Word, w.extractLsb 15 11 = 0b01011#5 →
    decodeWord w = .ok (.andi (Reg.ofBits (w.extractLsb 7 5)) (Reg.ofBits (w.extractLsb 10 8)) (w.extractLsb 4 0))) ∧
  (∀ (rd rs : Reg) (imm5 : BitVec 5) (s : State), ∃ t v, exec (.ori rd rs imm5) s = .next t ∧
    (∀ k, k < 16 → v.getLsbD k = ((s.reg rs).getLsbD k || (decide (k < 5) && imm5.getLsbD k))) ∧ WritesResult rd v s t) ∧
  (∀ (rd rs : Reg) (imm5 : BitVec 5) (s : State), ∃ t v, exec (.andi rd rs imm5) s = .next t ∧
    (∀ k, k < 16 → v.getLsbD k = ((s.reg rs).getLsbD k && (decide (k < 5) && imm5.getLsbD k))) ∧ WritesResult rd v s t)

/-- Words with opcode 10100 are ROLI and with 10110 RORI, with insn[4] ignored. The value written to Rd is rol_16 or
ror_16 of Rs by the immediate modulo 16, as 00_scope.md defines them on numbers; a rotate left by n is a rotate
right by 16 - n. In each case the answer is a next state with that value in Rd, the PC at PC + 2, and every
other register, EPC, the halted mark, every byte of memory and mark and the launch arguments as before. (R114,
R116.) -/
def Obligations.RoliRoriResult : Prop :=
  (∀ w : Word, w.extractLsb 15 11 = 0b10100#5 → ∃ imm5 : BitVec 5, imm5.toNat = w.toNat % 16 ∧
    decodeWord w = .ok (.roli (Reg.ofBits (w.extractLsb 7 5)) (Reg.ofBits (w.extractLsb 10 8)) imm5)) ∧
  (∀ w : Word, w.extractLsb 15 11 = 0b10110#5 → ∃ imm5 : BitVec 5, imm5.toNat = w.toNat % 16 ∧
    decodeWord w = .ok (.rori (Reg.ofBits (w.extractLsb 7 5)) (Reg.ofBits (w.extractLsb 10 8)) imm5)) ∧
  (∀ (rd rs : Reg) (imm5 : BitVec 5) (s : State), ∃ t v, exec (.roli rd rs imm5) s = .next t ∧
    v.toNat = (s.reg rs).toNat * 2 ^ (imm5.toNat % 16) % 65536 + (s.reg rs).toNat / 2 ^ (16 - imm5.toNat % 16) ∧ WritesResult rd v s t) ∧
  (∀ (rd rs : Reg) (imm5 : BitVec 5) (s : State), ∃ t v, exec (.rori rd rs imm5) s = .next t ∧
    v.toNat = (s.reg rs).toNat / 2 ^ (imm5.toNat % 16) +
      (s.reg rs).toNat % 2 ^ (imm5.toNat % 16) * 2 ^ (16 - imm5.toNat % 16) ∧ WritesResult rd v s t) ∧
  (∀ (rd rs : Reg) (l r : BitVec 5) (s : State), (l.toNat + r.toNat) % 16 = 0 →
    exec (.roli rd rs l) s = exec (.rori rd rs r) s)

/-- Words with opcode 10101 are SLLI and with 10111 SRAI, with insn[4] ignored. SLLI writes Rs times 2^n modulo
2^16, SRAI the floor of the signed value of Rs divided by 2^n, n being the immediate modulo 16. In each case the
answer is a next state with that value in Rd, the PC at PC + 2, and every other register, EPC, the halted mark,
every byte of memory and mark and the launch arguments as before. (R115, R117.) -/
def Obligations.SlliSraiResult : Prop :=
  (∀ w : Word, w.extractLsb 15 11 = 0b10101#5 → ∃ imm5 : BitVec 5, imm5.toNat = w.toNat % 16 ∧
    decodeWord w = .ok (.slli (Reg.ofBits (w.extractLsb 7 5)) (Reg.ofBits (w.extractLsb 10 8)) imm5)) ∧
  (∀ w : Word, w.extractLsb 15 11 = 0b10111#5 → ∃ imm5 : BitVec 5, imm5.toNat = w.toNat % 16 ∧
    decodeWord w = .ok (.srai (Reg.ofBits (w.extractLsb 7 5)) (Reg.ofBits (w.extractLsb 10 8)) imm5)) ∧
  (∀ (rd rs : Reg) (imm5 : BitVec 5) (s : State), ∃ t v, exec (.slli rd rs imm5) s = .next t ∧
    v.toNat = (s.reg rs).toNat * 2 ^ (imm5.toNat % 16) % 65536 ∧ WritesResult rd v s t) ∧
  (∀ (rd rs : Reg) (imm5 : BitVec 5) (s : State), ∃ t v, exec (.srai rd rs imm5) s = .next t ∧
    v.toInt = (s.reg rs).toInt / 2 ^ (imm5.toNat % 16) ∧ WritesResult rd v s t)

/-- Words with opcode 11011 and extension 00 are ADD, with 01 SUB, with Rs = insn[10:8], Rt = insn[7:5], Rd =
insn[4:2]. ADD writes the sum of the values of Rs and Rt modulo 2^16, SUB the value of Rt minus that of Rs. In
each case the answer is a next state with that value in Rd, the PC at PC + 2, and every other register, EPC, the
halted mark, every byte of memory and mark and the launch arguments as before. (R140, R141.) -/
def Obligations.AddSubResult : Prop :=
  (∀ w : Word, w.extractLsb 15 11 = 0b11011#5 → w.extractLsb 1 0 = 0b00#2 → decodeWord w =
    .ok (.add (Reg.ofBits (w.extractLsb 4 2)) (Reg.ofBits (w.extractLsb 10 8)) (Reg.ofBits (w.extractLsb 7 5)))) ∧
  (∀ w : Word, w.extractLsb 15 11 = 0b11011#5 → w.extractLsb 1 0 = 0b01#2 → decodeWord w =
    .ok (.sub (Reg.ofBits (w.extractLsb 4 2)) (Reg.ofBits (w.extractLsb 10 8)) (Reg.ofBits (w.extractLsb 7 5)))) ∧
  (∀ (rd rs rt : Reg) (s : State), ∃ t, exec (.add rd rs rt) s = .next t ∧
    WritesResult rd (BitVec.ofInt 16 ((s.reg rs).toInt + (s.reg rt).toInt)) s t) ∧
  (∀ (rd rs rt : Reg) (s : State), ∃ t, exec (.sub rd rs rt) s = .next t ∧
    WritesResult rd (BitVec.ofInt 16 ((s.reg rt).toInt - (s.reg rs).toInt)) s t)

/-- Words with opcode 11011 and extension 10 are OR, with 11 AND. Bit k of the value written to Rd is bit k of Rs or
(OR), and (AND), bit k of Rt. In each case the answer is a next state with that value in Rd, the PC at PC + 2,
and every other register, EPC, the halted mark, every byte of memory and mark and the launch arguments as
before. (R142, R143.) -/
def Obligations.OrAndResult : Prop :=
  (∀ w : Word, w.extractLsb 15 11 = 0b11011#5 → w.extractLsb 1 0 = 0b10#2 → decodeWord w =
    .ok (.or (Reg.ofBits (w.extractLsb 4 2)) (Reg.ofBits (w.extractLsb 10 8)) (Reg.ofBits (w.extractLsb 7 5)))) ∧
  (∀ w : Word, w.extractLsb 15 11 = 0b11011#5 → w.extractLsb 1 0 = 0b11#2 → decodeWord w =
    .ok (.and (Reg.ofBits (w.extractLsb 4 2)) (Reg.ofBits (w.extractLsb 10 8)) (Reg.ofBits (w.extractLsb 7 5)))) ∧
  (∀ (rd rs rt : Reg) (s : State), ∃ t v, exec (.or rd rs rt) s = .next t ∧
    (∀ k, k < 16 → v.getLsbD k = ((s.reg rs).getLsbD k || (s.reg rt).getLsbD k)) ∧ WritesResult rd v s t) ∧
  (∀ (rd rs rt : Reg) (s : State), ∃ t v, exec (.and rd rs rt) s = .next t ∧
    (∀ k, k < 16 → v.getLsbD k = ((s.reg rs).getLsbD k && (s.reg rt).getLsbD k)) ∧ WritesResult rd v s t)

/-- Words with opcode 11010 and extension 00 are ROL, with 10 ROR. The value written to Rd is rol_16 or ror_16 of Rs
by Rt modulo 16. In each case the answer is a next state with that value in Rd, the PC at PC + 2, and every
other register, EPC, the halted mark, every byte of memory and mark and the launch arguments as before. (R144,
R146.) -/
def Obligations.RolRorResult : Prop :=
  (∀ w : Word, w.extractLsb 15 11 = 0b11010#5 → w.extractLsb 1 0 = 0b00#2 → decodeWord w =
    .ok (.rol (Reg.ofBits (w.extractLsb 4 2)) (Reg.ofBits (w.extractLsb 10 8)) (Reg.ofBits (w.extractLsb 7 5)))) ∧
  (∀ w : Word, w.extractLsb 15 11 = 0b11010#5 → w.extractLsb 1 0 = 0b10#2 → decodeWord w =
    .ok (.ror (Reg.ofBits (w.extractLsb 4 2)) (Reg.ofBits (w.extractLsb 10 8)) (Reg.ofBits (w.extractLsb 7 5)))) ∧
  (∀ (rd rs rt : Reg) (s : State), ∃ t v, exec (.rol rd rs rt) s = .next t ∧
    v.toNat = (s.reg rs).toNat * 2 ^ ((s.reg rt).toNat % 16) % 65536 +
      (s.reg rs).toNat / 2 ^ (16 - (s.reg rt).toNat % 16) ∧ WritesResult rd v s t) ∧
  (∀ (rd rs rt : Reg) (s : State), ∃ t v, exec (.ror rd rs rt) s = .next t ∧
    v.toNat = (s.reg rs).toNat / 2 ^ ((s.reg rt).toNat % 16) +
      (s.reg rs).toNat % 2 ^ ((s.reg rt).toNat % 16) * 2 ^ (16 - (s.reg rt).toNat % 16) ∧ WritesResult rd v s t)

/-- Words with opcode 11010 and extension 01 are SLL, with 11 SRA. SLL writes Rs times 2^n modulo 2^16, SRA the
floor of the signed value of Rs divided by 2^n, n being Rt modulo 16. In each case the answer is a next state
with that value in Rd, the PC at PC + 2, and every other register, EPC, the halted mark, every byte of memory
and mark and the launch arguments as before. (R145, R147.) -/
def Obligations.SllSraResult : Prop :=
  (∀ w : Word, w.extractLsb 15 11 = 0b11010#5 → w.extractLsb 1 0 = 0b01#2 → decodeWord w =
    .ok (.sll (Reg.ofBits (w.extractLsb 4 2)) (Reg.ofBits (w.extractLsb 10 8)) (Reg.ofBits (w.extractLsb 7 5)))) ∧
  (∀ w : Word, w.extractLsb 15 11 = 0b11010#5 → w.extractLsb 1 0 = 0b11#2 → decodeWord w =
    .ok (.sra (Reg.ofBits (w.extractLsb 4 2)) (Reg.ofBits (w.extractLsb 10 8)) (Reg.ofBits (w.extractLsb 7 5)))) ∧
  (∀ (rd rs rt : Reg) (s : State), ∃ t v, exec (.sll rd rs rt) s = .next t ∧
    v.toNat = (s.reg rs).toNat * 2 ^ ((s.reg rt).toNat % 16) % 65536 ∧ WritesResult rd v s t) ∧
  (∀ (rd rs rt : Reg) (s : State), ∃ t v, exec (.sra rd rs rt) s = .next t ∧
    v.toInt = (s.reg rs).toInt / 2 ^ ((s.reg rt).toNat % 16) ∧ WritesResult rd v s t)

/-- Words with opcode 11100 are SEQ and with 11111 SCO, whatever insn[1:0]. SEQ writes 1 to Rd if Rs and Rt hold the
same 16 bits, else 0; SCO writes 1 if the unbounded sum of their unsigned values is at least 65536, else 0. In
each case the answer is a next state with that value in Rd, the PC at PC + 2, and every other register, EPC, the
halted mark, every byte of memory and mark and the launch arguments as before. (R160, R163.) -/
def Obligations.SeqScoResult : Prop :=
  (∀ w : Word, w.extractLsb 15 11 = 0b11100#5 → decodeWord w =
    .ok (.seq (Reg.ofBits (w.extractLsb 4 2)) (Reg.ofBits (w.extractLsb 10 8)) (Reg.ofBits (w.extractLsb 7 5)))) ∧
  (∀ w : Word, w.extractLsb 15 11 = 0b11111#5 → decodeWord w =
    .ok (.sco (Reg.ofBits (w.extractLsb 4 2)) (Reg.ofBits (w.extractLsb 10 8)) (Reg.ofBits (w.extractLsb 7 5)))) ∧
  (∀ (rd rs rt : Reg) (s : State), ∃ t, exec (.seq rd rs rt) s = .next t ∧
    WritesResult rd (if s.reg rs = s.reg rt then 0x0001 else 0x0000) s t) ∧
  (∀ (rd rs rt : Reg) (s : State), ∃ t, exec (.sco rd rs rt) s = .next t ∧
    WritesResult rd (if 65536 ≤ (s.reg rs).toNat + (s.reg rt).toNat then 0x0001 else 0x0000) s t)

/-- Words with opcode 11101 are SLT and with 11110 SLE, whatever insn[1:0]. SLT writes 1 to Rd if the signed value
of Rs is less than that of Rt, SLE if it is less or equal, else 0. That the comparison is right also when the
16-bit difference overflows is the spec's decision D31 (log entry 18). In each case the answer is a next state
with that value in Rd, the PC at PC + 2, and every other register, EPC, the halted mark, every byte of memory
and mark and the launch arguments as before. (44_set.md (SLT and SLE), 92_eei_decisions.md D31.) -/
def Obligations.SltSleResult : Prop :=
  (∀ w : Word, w.extractLsb 15 11 = 0b11101#5 → decodeWord w =
    .ok (.slt (Reg.ofBits (w.extractLsb 4 2)) (Reg.ofBits (w.extractLsb 10 8)) (Reg.ofBits (w.extractLsb 7 5)))) ∧
  (∀ w : Word, w.extractLsb 15 11 = 0b11110#5 → decodeWord w =
    .ok (.sle (Reg.ofBits (w.extractLsb 4 2)) (Reg.ofBits (w.extractLsb 10 8)) (Reg.ofBits (w.extractLsb 7 5)))) ∧
  (∀ (rd rs rt : Reg) (s : State), ∃ t, exec (.slt rd rs rt) s = .next t ∧
    WritesResult rd (if (s.reg rs).toInt < (s.reg rt).toInt then 0x0001 else 0x0000) s t) ∧
  (∀ (rd rs rt : Reg) (s : State), ∃ t, exec (.sle rd rs rt) s = .next t ∧
    WritesResult rd (if (s.reg rs).toInt ≤ (s.reg rt).toInt then 0x0001 else 0x0000) s t)

/-- Words with opcode 01100 are BEQZ and with 01101 BNEZ, with Rs = insn[10:8], imm8 = insn[7:0]. BEQZ sets the PC
to PC + 2 + the signed immediate modulo 2^16 if Rs is zero and to PC + 2 otherwise; BNEZ if Rs is not zero.
Every register, EPC, the halted mark, every byte of memory and mark and the launch arguments stay, and an odd PC
stops the next step with MisalignedFetch, not this one. (R170, R171.) -/
def Obligations.BranchResult : Prop :=
  (∀ w : Word, w.extractLsb 15 11 = 0b01100#5 →
    decodeWord w = .ok (.beqz (Reg.ofBits (w.extractLsb 10 8)) (w.extractLsb 7 0))) ∧
  (∀ w : Word, w.extractLsb 15 11 = 0b01101#5 →
    decodeWord w = .ok (.bnez (Reg.ofBits (w.extractLsb 10 8)) (w.extractLsb 7 0))) ∧
  (∀ (rs : Reg) (imm8 : BitVec 8) (s : State), ∃ t, exec (.beqz rs imm8) s = .next t ∧
    t.pc = (if s.reg rs = 0x0000 then BitVec.ofInt 16 (s.pc.toNat + 2 + imm8.toInt) else s.pc + 2) ∧
    OnlyRegsChanged [] s t ∧ OddPcStopsNextStep t) ∧
  (∀ (rs : Reg) (imm8 : BitVec 8) (s : State), ∃ t, exec (.bnez rs imm8) s = .next t ∧
    t.pc = (if s.reg rs ≠ 0x0000 then BitVec.ofInt 16 (s.pc.toNat + 2 + imm8.toInt) else s.pc + 2) ∧
    OnlyRegsChanged [] s t ∧ OddPcStopsNextStep t)

/-- Words with opcode 11000 are LBI and with 10010 SLBI, with Rs = insn[10:8], imm8 = insn[7:0]. LBI writes the
signed value of the immediate to Rs whatever Rs held; SLBI writes the old low byte of Rs above the immediate.
LBI hh then SLBI ll leaves hh above ll, for every hh and ll. In each case the PC is at PC + 2 and everything
else as before. (R180, R181.) -/
def Obligations.LbiSlbiResult : Prop :=
  (∀ w : Word, w.extractLsb 15 11 = 0b11000#5 →
    decodeWord w = .ok (.lbi (Reg.ofBits (w.extractLsb 10 8)) (w.extractLsb 7 0))) ∧
  (∀ w : Word, w.extractLsb 15 11 = 0b10010#5 →
    decodeWord w = .ok (.slbi (Reg.ofBits (w.extractLsb 10 8)) (w.extractLsb 7 0))) ∧
  (∀ (rs : Reg) (imm8 : BitVec 8) (s : State), ∃ t, exec (.lbi rs imm8) s = .next t ∧
    WritesResult rs (BitVec.ofInt 16 imm8.toInt) s t) ∧
  (∀ (rs : Reg) (imm8 : BitVec 8) (s : State), ∃ t, exec (.slbi rs imm8) s = .next t ∧
    WritesResult rs ((s.reg rs).extractLsb 7 0 ++ imm8) s t) ∧
  (∀ (rs : Reg) (hh ll : BitVec 8) (s : State), ∃ t u, exec (.lbi rs hh) s = .next t ∧
    exec (.slbi rs ll) t = .next u ∧ u.reg rs = (hh ++ ll : Word))

/-- Words with opcode 00100 are J, with disp11 = insn[10:0]. J sets the PC to PC + 2 + the signed displacement
modulo 2^16. Every register, EPC, the halted mark, every byte of memory and mark and the launch arguments stay,
and an odd PC stops the next step with MisalignedFetch, not this one. (R190.) -/
def Obligations.JumpResult : Prop :=
  (∀ w : Word, w.extractLsb 15 11 = 0b00100#5 → decodeWord w = .ok (.j (w.extractLsb 10 0))) ∧
  (∀ (disp11 : BitVec 11) (s : State), ∃ t, exec (.j disp11) s = .next t ∧
    t.pc = BitVec.ofInt 16 (s.pc.toNat + 2 + disp11.toInt) ∧ OnlyRegsChanged [] s t ∧ OddPcStopsNextStep t)

/-- Words with opcode 00101 are JR, with Rs = insn[10:8], imm8 = insn[7:0]; words with opcode 01110 are RET whatever
their other bits. JR sets the PC to Rs + the signed immediate modulo 2^16; RET sets it to R7 and is exactly JR
R7, 0. Every register, EPC, the halted mark, every byte of memory and mark and the launch arguments stay, and an
odd PC stops the next step with MisalignedFetch, not this one. (R191, R194.) -/
def Obligations.JumpRegisterAndReturnResult : Prop :=
  (∀ w : Word, w.extractLsb 15 11 = 0b00101#5 →
    decodeWord w = .ok (.jr (Reg.ofBits (w.extractLsb 10 8)) (w.extractLsb 7 0))) ∧
  (∀ w : Word, w.extractLsb 15 11 = 0b01110#5 → decodeWord w = .ok .ret) ∧
  (∀ (rs : Reg) (imm8 : BitVec 8) (s : State), ∃ t, exec (.jr rs imm8) s = .next t ∧
    t.pc = BitVec.ofInt 16 ((s.reg rs).toNat + imm8.toInt) ∧ OnlyRegsChanged [] s t ∧ OddPcStopsNextStep t) ∧
  (∀ s : State, ∃ t, exec .ret s = .next t ∧ t.pc = s.reg .R7 ∧ OnlyRegsChanged [] s t ∧ OddPcStopsNextStep t) ∧
  (∀ s : State, exec .ret s = exec (.jr .R7 0) s)

/-- Words with opcode 00110 are JAL, with disp11 = insn[10:0]. JAL writes PC + 2 to R7 and sets the PC to PC + 2 +
the signed displacement modulo 2^16, both from JAL's own address; every other register, EPC, the halted mark,
memory and the launch arguments stay, and an odd PC stops the next step, not this one. (R192.) -/
def Obligations.JumpAndLinkResult : Prop :=
  (∀ w : Word, w.extractLsb 15 11 = 0b00110#5 → decodeWord w = .ok (.jal (w.extractLsb 10 0))) ∧
  (∀ (disp11 : BitVec 11) (s : State), ∃ t, exec (.jal disp11) s = .next t ∧ t.reg .R7 = s.pc + 2 ∧
    t.pc = BitVec.ofInt 16 (s.pc.toNat + 2 + disp11.toInt) ∧ OnlyRegsChanged [.R7] s t ∧ OddPcStopsNextStep t)

/-- Words with opcode 00111 are JALR, with Rs = insn[10:8], imm8 = insn[7:0]. JALR sets the PC to the value Rs had
before it + the signed immediate modulo 2^16 and writes PC + 2 to R7; everything else stays, and an odd PC stops
the next step. That JALR R7 uses the old R7 is the spec's decision D19 (log entry 17); that the link is PC + 2
is C1. (47_jump.md (JALR), 92_eei_decisions.md D19, 90_conflicts.md C1.) -/
def Obligations.JumpAndLinkRegisterResult : Prop :=
  (∀ w : Word, w.extractLsb 15 11 = 0b00111#5 →
    decodeWord w = .ok (.jalr (Reg.ofBits (w.extractLsb 10 8)) (w.extractLsb 7 0))) ∧
  (∀ (rs : Reg) (imm8 : BitVec 8) (s : State), ∃ t, exec (.jalr rs imm8) s = .next t ∧ t.reg .R7 = s.pc + 2 ∧
    t.pc = BitVec.ofInt 16 ((s.reg rs).toNat + imm8.toInt) ∧ OnlyRegsChanged [.R7] s t ∧ OddPcStopsNextStep t)

/-- Words with opcode 10000 are ST, with Rs = insn[10:8], Rd = insn[7:5], imm5 = insn[4:0]. For every state of the
invariant in which Rs + the signed immediate modulo 2^16 is even, ST answers a next state in which the two bytes
there are those of Rd (high byte first when big-endian, low byte first when little-endian), marked written when
IFETCH_COHERENCE = fault; the PC is PC + 2 and every register, every other byte and mark, EPC, the halted mark
and the launch arguments stay. The byte order, the width and the alignment are the spec's decisions D4, D5, D6.
(42_load_store.md (ST), 20_memory.md sections 2 to 4, 92_eei_decisions.md D4, D5, D6, D8.) -/
def Obligations.StoreResult : Prop :=
  (∀ w : Word, w.extractLsb 15 11 = 0b10000#5 →
    decodeWord w = .ok (.st (Reg.ofBits (w.extractLsb 7 5)) (Reg.ofBits (w.extractLsb 10 8)) (w.extractLsb 4 0))) ∧
  (∀ (rd rs : Reg) (imm5 : BitVec 5) (s : State) (ea : Word), s.Inv →
    ea = BitVec.ofInt 16 ((s.reg rs).toNat + imm5.toInt) → ea.getLsbD 0 = false →
    ∃ t, exec (.st rd rs imm5) s = .next t ∧ ea = s.effAddr rs imm5 ∧
    (s.params.endian = .big → t.byte ea = (s.reg rd).extractLsb 15 8 ∧ t.byte (ea + 1) = (s.reg rd).extractLsb 7 0) ∧
    (s.params.endian = .little → t.byte ea = (s.reg rd).extractLsb 7 0 ∧ t.byte (ea + 1) = (s.reg rd).extractLsb 15 8) ∧
    t.isWritten ea = (s.isWritten ea || decide (s.params.ifetch = .fault)) ∧
    t.isWritten (ea + 1) = (s.isWritten (ea + 1) || decide (s.params.ifetch = .fault)) ∧
    t.pc = s.pc + 2 ∧ OnlyRegsAndDatumChanged [] ea s t)

/-- Words with opcode 10001 are LD, with Rs = insn[10:8], Rd = insn[7:5], imm5 = insn[4:0]. For every state in which
Rs + the signed immediate modulo 2^16 is even, LD answers a next state with the two bytes there in Rd (the byte
at the lower address high when big-endian, low when little-endian), the PC at PC + 2 and everything else as
before. The byte order, the width and the alignment are the spec's decisions D4, D5, D6. (42_load_store.md (LD),
20_memory.md sections 2 to 4, 92_eei_decisions.md D4, D5, D6.) -/
def Obligations.LoadResult : Prop :=
  (∀ w : Word, w.extractLsb 15 11 = 0b10001#5 →
    decodeWord w = .ok (.ld (Reg.ofBits (w.extractLsb 7 5)) (Reg.ofBits (w.extractLsb 10 8)) (w.extractLsb 4 0))) ∧
  (∀ (rd rs : Reg) (imm5 : BitVec 5) (s : State) (ea : Word),
    ea = BitVec.ofInt 16 ((s.reg rs).toNat + imm5.toInt) → ea.getLsbD 0 = false →
    ∃ t, exec (.ld rd rs imm5) s = .next t ∧
    (s.params.endian = .big → WritesResult rd (s.byte ea ++ s.byte (ea + 1)) s t) ∧
    (s.params.endian = .little → WritesResult rd (s.byte (ea + 1) ++ s.byte ea) s t))

/-- Words with opcode 10011 are STU. For every state of the invariant in which Rs + the signed immediate modulo 2^16
is even, STU stores the two bytes that Rd held before it there, in the machine's byte order, and writes that
address to Rs, also when Rd is Rs (decision D19, log entry 17); the PC is PC + 2 and everything else stays. The
byte order, the width and the alignment are the spec's decisions D4, D5, D6. (42_load_store.md (STU),
20_memory.md sections 2 to 4, 92_eei_decisions.md D4, D5, D6, D19.) -/
def Obligations.StoreWithUpdateResult : Prop :=
  (∀ w : Word, w.extractLsb 15 11 = 0b10011#5 →
    decodeWord w = .ok (.stu (Reg.ofBits (w.extractLsb 7 5)) (Reg.ofBits (w.extractLsb 10 8)) (w.extractLsb 4 0))) ∧
  (∀ (rd rs : Reg) (imm5 : BitVec 5) (s : State) (ea : Word), s.Inv →
    ea = BitVec.ofInt 16 ((s.reg rs).toNat + imm5.toInt) → ea.getLsbD 0 = false →
    ∃ t, exec (.stu rd rs imm5) s = .next t ∧ ea = s.effAddr rs imm5 ∧ t.reg rs = ea ∧
    (s.params.endian = .big → t.byte ea = (s.reg rd).extractLsb 15 8 ∧ t.byte (ea + 1) = (s.reg rd).extractLsb 7 0) ∧
    (s.params.endian = .little → t.byte ea = (s.reg rd).extractLsb 7 0 ∧ t.byte (ea + 1) = (s.reg rd).extractLsb 15 8) ∧
    t.isWritten ea = (s.isWritten ea || decide (s.params.ifetch = .fault)) ∧
    t.isWritten (ea + 1) = (s.isWritten (ea + 1) || decide (s.params.ifetch = .fault)) ∧
    t.pc = s.pc + 2 ∧ OnlyRegsAndDatumChanged [rs] ea s t)

/-- Whenever Rs + the signed immediate modulo 2^16 is odd, LD, ST and STU answer the fault MisalignedData, and so
there is no next state and nothing is changed. Decision D6 of the spec. (42_load_store.md (R135, decision D6),
20_memory.md section 4.) -/
def Obligations.OddDataAddressFaults : Prop :=
  ∀ (rd rs : Reg) (imm5 : BitVec 5) (s : State),
    ((s.reg rs).toNat + imm5.toInt) % 2 = 1 →
    exec (.ld rd rs imm5) s = .fault .misalignedData ∧
    exec (.st rd rs imm5) s = .fault .misalignedData ∧
    exec (.stu rd rs imm5) s = .fault .misalignedData

/-- For every state of the invariant, if ST or STU answers next t: every LD in t whose effective address is the one
stored to completes with the register value stored; every LD in t at another even address completes with the
datum that s held there. Decision D18 of the spec; that STU with Rd = Rs stores the old Rd is its decision D19
(log entry 17). (20_memory.md section 6 (R50, decision D18), 92_eei_decisions.md D18, D19.) -/
def Obligations.LoadReturnsTheLastStore : Prop :=
  ∀ (rd rs : Reg) (imm5 : BitVec 5) (i : Instr) (s t : State), s.Inv →
    (i = .st rd rs imm5 ∨ i = .stu rd rs imm5) → exec i s = .next t →
    ∀ (rd' rs' : Reg) (imm5' : BitVec 5),
      (t.effAddr rs' imm5' = s.effAddr rs imm5 →
        ∃ u, exec (.ld rd' rs' imm5') t = .next u ∧ u.reg rd' = s.reg rd) ∧
      (t.effAddr rs' imm5' ≠ s.effAddr rs imm5 → (t.effAddr rs' imm5').getLsbD 0 = false →
        ∃ u, exec (.ld rd' rs' imm5') t = .next u ∧ u.reg rd' = s.readWord (t.effAddr rs' imm5'))

/-- Every word with opcode 00010 is SIIC. With EXC = true, SIIC answers a next state with EPC = PC + 2 and PC =
0x0002, whatever its register, with every general register, the halted mark, every byte of memory and mark and
the launch arguments as before. (R210, R222.) -/
def Obligations.SiicTakesTheException : Prop :=
  (∀ w : Word, w.extractLsb 15 11 = 0b00010#5 → ∃ rs, decodeWord w = .ok (.siic rs)) ∧
  (∀ (rs : Reg) (s : State), s.params.exc = true → ∃ t, exec (.siic rs) s = .next t ∧
    t.epc = s.pc + 2 ∧ t.pc = 0x0002 ∧ RegsUnchangedBut [] s t ∧ t.halted = s.halted ∧ MemoryUnchanged s t ∧
    LaunchUnchanged s t) ∧
  (∀ (rs rs' : Reg) (s : State), exec (.siic rs) s = exec (.siic rs') s)

/-- With EXC = false, SIIC answers the fault SiicNotImplemented, whatever its register. Decision D29 of the spec.
(48_exception_instructions.md (R211, decision D29).) -/
def Obligations.SiicWithoutExceptionsFaults : Prop :=
  ∀ (rs : Reg) (s : State), s.params.exc = false → exec (.siic rs) s = .fault .siicNotImplemented

/-- Every word with opcode 00011 is RTI. With EXC = true, RTI answers a next state whose PC is EPC, with EPC and
everything else as before, an odd PC stopping the next step; a SIIC at an even PC leaves an even EPC. With EXC =
false, RTI answers what NOP answers: PC + 2 and nothing else. (R212, R213.) -/
def Obligations.RtiLoadsThePcFromEpc : Prop :=
  (∀ w : Word, w.extractLsb 15 11 = 0b00011#5 → decodeWord w = .ok .rti) ∧
  (∀ s : State, s.params.exc = true → ∃ t, exec .rti s = .next t ∧ t.pc = s.epc ∧ OnlyRegsChanged [] s t ∧
    OddPcStopsNextStep t) ∧
  (∀ (rs : Reg) (s t : State), exec (.siic rs) s = .next t → s.pc.getLsbD 0 = false → t.epc.getLsbD 0 = false) ∧
  (∀ s : State, s.params.exc = false → ∃ t, exec .rti s = .next t ∧ t.pc = s.pc + 2 ∧ OnlyRegsChanged [] s t ∧
    exec .rti s = exec .nop s)

/-- With EXC = true: SIIC and then RTI reach a state whose PC and EPC are the SIIC's address + 2, with every general
register, the halted mark, every byte of memory and mark and the launch arguments as before the SIIC. If the
handler's first instruction is itself SIIC, it leaves EPC = 0x0004 and the PC at 0x0002 again, and RTI after it
goes to 0x0004 with EPC = 0x0004, whatever the address of the first SIIC, and with everything but the PC and EPC
as before it. (60_exceptions.md section 3 (R224, R225, derived there), 60_exceptions.md R222.) -/
def Obligations.ReturnResumesAfterSiicAndNestingLosesIt : Prop :=
  ∀ (rs rs' : Reg) (s : State), s.params.exc = true →
    ∃ t, exec (.siic rs) s = .next t ∧
      (∃ u, exec .rti t = .next u ∧ u.pc = s.pc + 2 ∧ u.epc = s.pc + 2 ∧ RegsUnchangedBut [] s u ∧
        u.halted = s.halted ∧ MemoryUnchanged s u ∧ LaunchUnchanged s u) ∧
      (∃ v u, exec (.siic rs') t = .next v ∧ v.pc = 0x0002 ∧ v.epc = 0x0004 ∧ exec .rti v = .next u ∧
        u.pc = 0x0004 ∧ u.epc = 0x0004 ∧ RegsUnchangedBut [] s u ∧ u.halted = s.halted ∧ MemoryUnchanged s u ∧
        LaunchUnchanged s u)

/-- Let s meet the invariant with IFETCH_COHERENCE = fault and s' be a machine of the invariant that agrees with s
on everything but that parameter, which is unified or split there, and the marks. Every run from s to t has a
run from s' to a t' that agrees with t in the same way. (20_memory.md section 7 (R53, decision D8).) -/
def Obligations.FaultFreeRunsAgreeUnderEveryCoherence : Prop :=
  ∀ s t s' : State, s.Inv → s'.Inv → s.params.ifetch = .fault → s'.params.ifetch ≠ .fault →
    SameButCoherence s s' → Runs s t → ∃ t', Runs s' t' ∧ SameButCoherence t t'

/-- If s and t meet the invariant, have opposite byte orders, hold the same 16-bit data at every even address of
memory and image, and agree on everything else, then their steps agree: both answer next states related in the
same way, or both the same fault, or both are refused. (20_memory.md section 3 (R56, derived there),
92_eei_decisions.md D5.) -/
def Obligations.ByteOrderIsUnobservable : Prop :=
  ∀ s t : State, s.Inv → t.Inv → ByteSwapped s t → Agree ByteSwapped (step s) (step t)
end

