-- ==== Sys2Proof/Laws/State.lean ====
section
/-! SUPPORT. One lemma per field per update of State, so that no later proof unfolds a record update. -/

namespace Sys2Proof.Machine

@[simp] theorem Regs.get_set_same (g : Regs) (r : Reg) (v : Word) : (g.set r v).get r = v := by
  cases r <;> rfl

@[simp] theorem Regs.get_set_of_ne (g : Regs) {q r : Reg} (v : Word) (h : q ≠ r) : (g.set r v).get q = g.get q := by
  cases q <;> cases r <;> first | rfl | exact absurd rfl h

theorem Regs.ext_get {g h : Regs} (e : ∀ r, g.get r = h.get r) : g = h := by
  cases g; cases h
  have := e .R0; have := e .R1; have := e .R2; have := e .R3
  have := e .R4; have := e .R5; have := e .R6; have := e .R7
  simp_all [Regs.get]

theorem Regs.set_comm (g : Regs) {q r : Reg} (v w : Word) (h : q ≠ r) :
    (g.set r v).set q w = (g.set q w).set r v := by
  cases q <;> cases r <;> first | rfl | exact absurd rfl h

theorem Regs.set_set_same (g : Regs) (r : Reg) (v w : Word) : (g.set r v).set r w = g.set r w := by
  cases r <;> rfl

theorem State.reg_setReg (s : State) (q r : Reg) (v : Word) :
    (s.setReg r v).reg q = if q = r then v else s.reg q := by
  by_cases h : q = r
  · subst h; simp [State.reg, State.setReg]
  · simp [State.reg, State.setReg, h]

@[simp] theorem State.reg_setReg_same (s : State) (r : Reg) (v : Word) : (s.setReg r v).reg r = v := by
  simp [State.reg_setReg]

@[simp] theorem State.reg_setReg_of_ne (s : State) {q r : Reg} (v : Word) (h : q ≠ r) :
    (s.setReg r v).reg q = s.reg q := by simp [State.reg_setReg, h]

@[simp] theorem State.setReg_regs (s : State) (r : Reg) (v : Word) : (s.setReg r v).regs = s.regs.set r v := rfl
@[simp] theorem State.setReg_pc (s : State) (r : Reg) (v : Word) : (s.setReg r v).pc = s.pc := rfl
@[simp] theorem State.setReg_epc (s : State) (r : Reg) (v : Word) : (s.setReg r v).epc = s.epc := rfl
@[simp] theorem State.setReg_mem (s : State) (r : Reg) (v : Word) : (s.setReg r v).mem = s.mem := rfl
@[simp] theorem State.setReg_halted (s : State) (r : Reg) (v : Word) : (s.setReg r v).halted = s.halted := rfl
@[simp] theorem State.setReg_written (s : State) (r : Reg) (v : Word) : (s.setReg r v).written = s.written := rfl
@[simp] theorem State.setReg_image (s : State) (r : Reg) (v : Word) : (s.setReg r v).image = s.image := rfl
@[simp] theorem State.setReg_params (s : State) (r : Reg) (v : Word) : (s.setReg r v).params = s.params := rfl
@[simp] theorem State.setReg_byte (s : State) (r : Reg) (v a : Word) : (s.setReg r v).byte a = s.byte a := rfl
@[simp] theorem State.setReg_isWritten (s : State) (r : Reg) (v a : Word) :
    (s.setReg r v).isWritten a = s.isWritten a := rfl
@[simp] theorem State.setReg_imageByte (s : State) (r : Reg) (v a : Word) :
    (s.setReg r v).imageByte a = s.imageByte a := rfl

@[simp] theorem State.setPc_pc (s : State) (p : Word) : (s.setPc p).pc = p := rfl
@[simp] theorem State.setPc_regs (s : State) (p : Word) : (s.setPc p).regs = s.regs := rfl
@[simp] theorem State.setPc_reg (s : State) (p : Word) (r : Reg) : (s.setPc p).reg r = s.reg r := rfl
@[simp] theorem State.setPc_epc (s : State) (p : Word) : (s.setPc p).epc = s.epc := rfl
@[simp] theorem State.setPc_mem (s : State) (p : Word) : (s.setPc p).mem = s.mem := rfl
@[simp] theorem State.setPc_halted (s : State) (p : Word) : (s.setPc p).halted = s.halted := rfl
@[simp] theorem State.setPc_written (s : State) (p : Word) : (s.setPc p).written = s.written := rfl
@[simp] theorem State.setPc_image (s : State) (p : Word) : (s.setPc p).image = s.image := rfl
@[simp] theorem State.setPc_params (s : State) (p : Word) : (s.setPc p).params = s.params := rfl
@[simp] theorem State.setPc_byte (s : State) (p a : Word) : (s.setPc p).byte a = s.byte a := rfl
@[simp] theorem State.setPc_isWritten (s : State) (p a : Word) : (s.setPc p).isWritten a = s.isWritten a := rfl
@[simp] theorem State.setPc_imageByte (s : State) (p a : Word) : (s.setPc p).imageByte a = s.imageByte a := rfl

@[simp] theorem State.setEpc_epc (s : State) (p : Word) : (s.setEpc p).epc = p := rfl
@[simp] theorem State.setEpc_pc (s : State) (p : Word) : (s.setEpc p).pc = s.pc := rfl
@[simp] theorem State.setEpc_regs (s : State) (p : Word) : (s.setEpc p).regs = s.regs := rfl
@[simp] theorem State.setEpc_reg (s : State) (p : Word) (r : Reg) : (s.setEpc p).reg r = s.reg r := rfl
@[simp] theorem State.setEpc_mem (s : State) (p : Word) : (s.setEpc p).mem = s.mem := rfl
@[simp] theorem State.setEpc_halted (s : State) (p : Word) : (s.setEpc p).halted = s.halted := rfl
@[simp] theorem State.setEpc_written (s : State) (p : Word) : (s.setEpc p).written = s.written := rfl
@[simp] theorem State.setEpc_image (s : State) (p : Word) : (s.setEpc p).image = s.image := rfl
@[simp] theorem State.setEpc_params (s : State) (p : Word) : (s.setEpc p).params = s.params := rfl
@[simp] theorem State.setEpc_byte (s : State) (p a : Word) : (s.setEpc p).byte a = s.byte a := rfl
@[simp] theorem State.setEpc_isWritten (s : State) (p a : Word) : (s.setEpc p).isWritten a = s.isWritten a := rfl
@[simp] theorem State.setEpc_imageByte (s : State) (p a : Word) : (s.setEpc p).imageByte a = s.imageByte a := rfl

@[simp] theorem State.setHalted_halted (s : State) : s.setHalted.halted = true := rfl
@[simp] theorem State.setHalted_pc (s : State) : s.setHalted.pc = s.pc := rfl
@[simp] theorem State.setHalted_epc (s : State) : s.setHalted.epc = s.epc := rfl
@[simp] theorem State.setHalted_regs (s : State) : s.setHalted.regs = s.regs := rfl
@[simp] theorem State.setHalted_reg (s : State) (r : Reg) : s.setHalted.reg r = s.reg r := rfl
@[simp] theorem State.setHalted_mem (s : State) : s.setHalted.mem = s.mem := rfl
@[simp] theorem State.setHalted_written (s : State) : s.setHalted.written = s.written := rfl
@[simp] theorem State.setHalted_image (s : State) : s.setHalted.image = s.image := rfl
@[simp] theorem State.setHalted_params (s : State) : s.setHalted.params = s.params := rfl
@[simp] theorem State.setHalted_byte (s : State) (a : Word) : s.setHalted.byte a = s.byte a := rfl
@[simp] theorem State.setHalted_isWritten (s : State) (a : Word) : s.setHalted.isWritten a = s.isWritten a := rfl
@[simp] theorem State.setHalted_imageByte (s : State) (a : Word) : s.setHalted.imageByte a = s.imageByte a := rfl

@[simp] theorem State.setByte_regs (s : State) (a : Word) (b : Byte) : (s.setByte a b).regs = s.regs := rfl
@[simp] theorem State.setByte_reg (s : State) (a : Word) (b : Byte) (r : Reg) : (s.setByte a b).reg r = s.reg r := rfl
@[simp] theorem State.setByte_pc (s : State) (a : Word) (b : Byte) : (s.setByte a b).pc = s.pc := rfl
@[simp] theorem State.setByte_epc (s : State) (a : Word) (b : Byte) : (s.setByte a b).epc = s.epc := rfl
@[simp] theorem State.setByte_mem (s : State) (a : Word) (b : Byte) :
    (s.setByte a b).mem = s.mem.write a.toNat b := rfl
@[simp] theorem State.setByte_halted (s : State) (a : Word) (b : Byte) : (s.setByte a b).halted = s.halted := rfl
@[simp] theorem State.setByte_written (s : State) (a : Word) (b : Byte) : (s.setByte a b).written = s.written := rfl
@[simp] theorem State.setByte_image (s : State) (a : Word) (b : Byte) : (s.setByte a b).image = s.image := rfl
@[simp] theorem State.setByte_params (s : State) (a : Word) (b : Byte) : (s.setByte a b).params = s.params := rfl

@[simp] theorem State.mark_regs (s : State) (a : Word) : (s.mark a).regs = s.regs := by
  unfold State.mark; split <;> rfl
@[simp] theorem State.mark_reg (s : State) (a : Word) (r : Reg) : (s.mark a).reg r = s.reg r := by
  simp [State.reg]
@[simp] theorem State.mark_pc (s : State) (a : Word) : (s.mark a).pc = s.pc := by
  unfold State.mark; split <;> rfl
@[simp] theorem State.mark_epc (s : State) (a : Word) : (s.mark a).epc = s.epc := by
  unfold State.mark; split <;> rfl
@[simp] theorem State.mark_mem (s : State) (a : Word) : (s.mark a).mem = s.mem := by
  unfold State.mark; split <;> rfl
@[simp] theorem State.mark_halted (s : State) (a : Word) : (s.mark a).halted = s.halted := by
  unfold State.mark; split <;> rfl
@[simp] theorem State.mark_image (s : State) (a : Word) : (s.mark a).image = s.image := by
  unfold State.mark; split <;> rfl
@[simp] theorem State.mark_params (s : State) (a : Word) : (s.mark a).params = s.params := by
  unfold State.mark; split <;> rfl
@[simp] theorem State.mark_byte (s : State) (k a : Word) : (s.mark k).byte a = s.byte a := by
  simp [State.byte]
theorem State.mark_written (s : State) (a : Word) :
    (s.mark a).written = if s.params.ifetch = .fault then Marks.insert s.written a.toNat else s.written := by
  unfold State.mark; split <;> simp_all

@[simp] theorem State.writeWord_regs (s : State) (a v : Word) : (s.writeWord a v).regs = s.regs := by
  simp [State.writeWord]
@[simp] theorem State.writeWord_reg (s : State) (a v : Word) (r : Reg) : (s.writeWord a v).reg r = s.reg r := by
  simp [State.writeWord]
@[simp] theorem State.writeWord_pc (s : State) (a v : Word) : (s.writeWord a v).pc = s.pc := by
  simp [State.writeWord]
@[simp] theorem State.writeWord_epc (s : State) (a v : Word) : (s.writeWord a v).epc = s.epc := by
  simp [State.writeWord]
@[simp] theorem State.writeWord_halted (s : State) (a v : Word) : (s.writeWord a v).halted = s.halted := by
  simp [State.writeWord]
@[simp] theorem State.writeWord_image (s : State) (a v : Word) : (s.writeWord a v).image = s.image := by
  simp [State.writeWord]
@[simp] theorem State.writeWord_params (s : State) (a v : Word) : (s.writeWord a v).params = s.params := by
  simp [State.writeWord]
@[simp] theorem State.writeWord_imageByte (s : State) (a v k : Word) :
    (s.writeWord a v).imageByte k = s.imageByte k := by simp [State.imageByte]

@[simp] theorem State.nextPc_eq (s : State) : s.nextPc = s.pc + 2 := rfl
@[simp] theorem State.advance_eq (s : State) : s.advance = s.setPc (s.pc + 2) := rfl

end Sys2Proof.Machine
end

