-- ==== Sys2Proof/Laws/Memory.lean ====
section
/-! SUPPORT. The laws of memory and of the marks: read after write, the canonical form is kept, equal reads are equal
memories; then the same for the 16-bit accesses of State. -/

namespace Sys2Proof.Machine

/-! ### Memory -/

theorem Memory.read_consCell (a : Nat) (b : Byte) (m : Memory) (k : Nat)
    (h : m.read a = Config.unlistedByte) :
    (Memory.consCell a b m).read k = if k = a then b else m.read k := by
  unfold Memory.consCell
  by_cases hb : b = Config.unlistedByte
  · by_cases hk : k = a
    · subst hk; simp [hb, h]
    · simp [hb, hk]
  · by_cases hk : k = a
    · subst hk; simp [hb, Memory.read]
    · simp [hb, hk, Memory.read, Ne.symm hk]

/-- An address below every cell is unlisted. -/
theorem Memory.read_of_lt (m : Memory) (a : Nat) (h : ∀ c ∈ m, a < c.1) : m.read a = Config.unlistedByte := by
  induction m with
  | nil => rfl
  | cons c m ih =>
    have hc : a < c.1 := h c (by simp)
    simp only [Memory.read]
    rw [if_neg (by omega), ih (fun d hd => h d (by simp [hd]))]

theorem Memory.wf_tail {c : Host.Cell} {m : Memory} (h : Memory.wf (c :: m)) : Memory.wf m :=
  ⟨(List.pairwise_cons.mp h.1).2, fun d hd => h.2 d (by simp [hd])⟩

theorem Memory.wf_nil : Memory.wf [] := by simp [Memory.wf]

/-- Read after write: the byte written at its address, and every other byte as before. -/
theorem Memory.read_write (m : Memory) (h : Memory.wf m) (a : Nat) (b : Byte) (k : Nat) :
    (m.write a b).read k = if k = a then b else m.read k := by
  induction m with
  | nil => exact Memory.read_consCell a b [] k rfl
  | cons c m ih =>
    have hlt : ∀ d ∈ m, c.1 < d.1 := (List.pairwise_cons.mp h.1).1
    simp only [Memory.write]
    by_cases h1 : a < c.1
    · rw [if_pos h1]
      refine Memory.read_consCell a b _ k (Memory.read_of_lt _ _ ?_)
      intro d hd
      rcases List.mem_cons.mp hd with rfl | hd
      · exact h1
      · exact lt_trans h1 (hlt d hd)
    · rw [if_neg h1]
      by_cases h2 : a = c.1
      · rw [if_pos h2, Memory.read_consCell a b m k (Memory.read_of_lt _ _ (fun d hd => by rw [h2]; exact hlt d hd))]
        by_cases hk : k = a
        · simp [hk]
        · have hck : c.1 ≠ k := fun e => hk (by rw [h2, e])
          simp [hk, Memory.read, hck]
      · rw [if_neg h2]
        simp only [Memory.read]
        by_cases hk : c.1 = k
        · have : k ≠ a := fun e => h2 (by rw [← e, hk])
          simp [hk, this]
        · simp [hk, ih (Memory.wf_tail h)]

theorem Memory.wf_consCell {a : Nat} {b : Byte} {m : Memory} (h : Memory.wf m) (ha : a < 65536)
    (hlt : ∀ d ∈ m, a < d.1) : Memory.wf (Memory.consCell a b m) := by
  unfold Memory.consCell
  by_cases hb : b = Config.unlistedByte
  · simpa [hb] using h
  · rw [if_neg hb]
    refine ⟨List.pairwise_cons.mpr ⟨hlt, h.1⟩, ?_⟩
    intro d hd
    rcases List.mem_cons.mp hd with rfl | hd
    · exact ⟨ha, hb⟩
    · exact h.2 d hd

theorem Memory.mem_consCell {a : Nat} {b : Byte} {m : Memory} {d : Host.Cell}
    (h : d ∈ Memory.consCell a b m) : d = (a, b) ∨ d ∈ m := by
  unfold Memory.consCell at h
  split at h
  · exact .inr h
  · exact List.mem_cons.mp h

theorem Memory.mem_write {m : Memory} {a : Nat} {b : Byte} {d : Host.Cell}
    (h : d ∈ m.write a b) : d = (a, b) ∨ d ∈ m := by
  induction m with
  | nil => exact Memory.mem_consCell h
  | cons c m ih =>
    simp only [Memory.write] at h
    split at h
    · exact Memory.mem_consCell h
    · split at h
      · exact (Memory.mem_consCell h).imp id (fun h => List.mem_cons_of_mem _ h)
      · rcases List.mem_cons.mp h with rfl | h
        · exact .inr (by simp)
        · exact (ih h).imp id (fun h => List.mem_cons_of_mem _ h)

/-- A write keeps the canonical form. -/
theorem Memory.wf_write (m : Memory) (h : Memory.wf m) (a : Nat) (ha : a < 65536) (b : Byte) :
    Memory.wf (m.write a b) := by
  induction m with
  | nil => exact Memory.wf_consCell h ha (by simp)
  | cons c m ih =>
    have hlt : ∀ d ∈ m, c.1 < d.1 := (List.pairwise_cons.mp h.1).1
    have ht := Memory.wf_tail h
    simp only [Memory.write]
    by_cases h1 : a < c.1
    · rw [if_pos h1]
      refine Memory.wf_consCell h ha ?_
      intro d hd
      rcases List.mem_cons.mp hd with rfl | hd
      · exact h1
      · exact lt_trans h1 (hlt d hd)
    · rw [if_neg h1]
      by_cases h2 : a = c.1
      · rw [if_pos h2]
        exact Memory.wf_consCell ht ha (fun d hd => by rw [h2]; exact hlt d hd)
      · rw [if_neg h2]
        have hw := ih ht
        refine ⟨List.pairwise_cons.mpr ⟨?_, hw.1⟩, ?_⟩
        · intro d hd
          rcases Memory.mem_write hd with rfl | hd
          · show c.1 < a; omega
          · exact hlt d hd
        · intro d hd
          rcases List.mem_cons.mp hd with rfl | hd
          · exact h.2 _ (by simp)
          · exact hw.2 d hd

/-- Canonical memories that read the same are the same list. -/
theorem Memory.eq_of_read {m n : Memory} (hm : Memory.wf m) (hn : Memory.wf n)
    (e : ∀ a, m.read a = n.read a) : m = n := by
  induction m generalizing n with
  | nil =>
    cases n with
    | nil => rfl
    | cons d n =>
      have := e d.1
      simp only [Memory.read, if_true] at this
      exact absurd this.symm (hn.2 d (by simp)).2
  | cons c m ih =>
    have hmc : ∀ d ∈ m, c.1 < d.1 := (List.pairwise_cons.mp hm.1).1
    cases n with
    | nil =>
      have := e c.1
      simp only [Memory.read, if_true] at this
      exact absurd this (hm.2 c (by simp)).2
    | cons d n =>
      have hnd : ∀ x ∈ n, d.1 < x.1 := (List.pairwise_cons.mp hn.1).1
      have key : c.1 = d.1 := by
        rcases lt_trichotomy c.1 d.1 with h | h | h
        · have := e c.1
          rw [Memory.read_of_lt (d :: n) c.1 (by
            intro x hx
            rcases List.mem_cons.mp hx with rfl | hx
            · exact h
            · exact lt_trans h (hnd x hx))] at this
          simp only [Memory.read, if_true] at this
          exact absurd this (hm.2 c (by simp)).2
        · exact h
        · have := e d.1
          rw [Memory.read_of_lt (c :: m) d.1 (by
            intro x hx
            rcases List.mem_cons.mp hx with rfl | hx
            · exact h
            · exact lt_trans h (hmc x hx))] at this
          simp only [Memory.read, if_true] at this
          exact absurd this.symm (hn.2 d (by simp)).2
      have hv : c.2 = d.2 := by
        have := e c.1
        simpa [Memory.read, key] using this
      have htl : m = n := by
        refine ih (Memory.wf_tail hm) (Memory.wf_tail hn) (fun a => ?_)
        by_cases ha : a = c.1
        · rw [ha, Memory.read_of_lt m _ hmc, Memory.read_of_lt n _ (by rw [key]; exact hnd)]
        · have := e a
          have h1 : c.1 ≠ a := fun h => ha h.symm
          have h2 : d.1 ≠ a := fun h => ha (by rw [key, h])
          simpa [Memory.read, h1, h2] using this
      rw [htl, Prod.ext key hv]

/-! ### Marks -/

theorem Marks.mem_insert (ks : Marks) (a k : Nat) : k ∈ Marks.insert ks a ↔ k = a ∨ k ∈ ks := by
  induction ks with
  | nil => simp [Marks.insert]
  | cons x ks ih =>
    unfold Marks.insert
    split
    · simp
    · split
      · rename_i h; subst h; simp
      · simp only [List.mem_cons, ih]; tauto

/-- Marking keeps the canonical form. -/
theorem Marks.wf_insert (ks : Marks) (h : Marks.wf ks) (a : Nat) (ha : a < 65536) : Marks.wf (Marks.insert ks a) := by
  refine ⟨?_, fun k hk => ?_⟩
  · obtain ⟨hp, -⟩ := h
    induction ks with
    | nil => simp [Marks.insert]
    | cons x ks ih =>
      obtain ⟨hx, hks⟩ := List.pairwise_cons.mp hp
      unfold Marks.insert
      split
      · rename_i h1
        refine List.pairwise_cons.mpr ⟨fun y hy => ?_, hp⟩
        rcases List.mem_cons.mp hy with rfl | hy
        · exact h1
        · exact lt_trans h1 (hx y hy)
      · split
        · exact hp
        · refine List.pairwise_cons.mpr ⟨fun y hy => ?_, ih hks⟩
          rcases (Marks.mem_insert ks a y).mp hy with rfl | hy
          · omega
          · exact hx y hy
  · rcases (Marks.mem_insert ks a k).mp hk with rfl | hk
    · exact ha
    · exact h.2 k hk

/-! ### The 16-bit accesses of State -/

theorem State.isWritten_mark (s : State) (k a : Word) :
    (s.mark k).isWritten a = (s.isWritten a || (decide (s.params.ifetch = .fault) && decide (a = k))) := by
  rw [Bool.eq_iff_iff]
  simp only [State.isWritten, State.mark_written, List.contains_iff_mem, Bool.or_eq_true, Bool.and_eq_true,
    decide_eq_true_eq]
  by_cases h : s.params.ifetch = .fault
  · rw [if_pos h, Marks.mem_insert]
    simp only [h, true_and, BitVec.toNat_inj]
    tauto
  · simp [h]

theorem State.byte_setByte (s : State) (h : Memory.wf s.mem) (k a : Word) (b : Byte) :
    (s.setByte k b).byte a = if a = k then b else s.byte a := by
  simp only [State.byte, State.setByte_mem, Memory.read_write _ h, BitVec.toNat_inj]

/-- What each byte reads as after a 16-bit store. -/
theorem State.byte_writeWord (s : State) (h : Memory.wf s.mem) (ea v a : Word) :
    (s.writeWord ea v).byte a =
      if a = ea + 1 then higherByte s.params.endian v
      else if a = ea then lowerByte s.params.endian v else s.byte a := by
  simp only [State.writeWord, State.mark_byte]
  rw [State.byte_setByte _ (by
    simpa using Memory.wf_write _ h _ ea.isLt _), State.byte_setByte _ h]

/-- Which marks are set after a 16-bit store. -/
theorem State.isWritten_writeWord (s : State) (ea v a : Word) :
    (s.writeWord ea v).isWritten a =
      (s.isWritten a || (decide (s.params.ifetch = .fault) && (decide (a = ea) || decide (a = ea + 1)))) := by
  simp only [State.writeWord, State.isWritten_mark, State.mark_params, State.setByte_params]
  have : ∀ x : State, ∀ k b, (x.setByte k b).isWritten a = x.isWritten a := fun _ _ _ => rfl
  simp only [this]
  by_cases hf : s.params.ifetch = .fault
  · simp only [hf, decide_true, Bool.true_and, Bool.or_assoc]
  · simp [hf]

theorem State.wf_writeWord (s : State) (h : Memory.wf s.mem) (ea v : Word) : Memory.wf (s.writeWord ea v).mem := by
  simp only [State.writeWord, State.mark_mem, State.setByte_mem]
  exact Memory.wf_write _ (Memory.wf_write _ h _ ea.isLt _) _ (ea + 1).isLt _

theorem State.marks_wf_writeWord (s : State) (h : Marks.wf s.written) (ea v : Word) :
    Marks.wf (s.writeWord ea v).written := by
  simp only [State.writeWord, State.mark_written, State.mark_params, State.setByte_params, State.setByte_written]
  by_cases hf : s.params.ifetch = .fault
  · simpa only [hf, if_true] using Marks.wf_insert _ (Marks.wf_insert _ h _ ea.isLt) _ (ea + 1).isLt
  · simpa only [hf, if_false] using h

/-- The two bytes of a datum, put together again, are the datum, in either byte order. -/
theorem wordOfBytes_bytes (e : Config.Endian) (w : Word) : wordOfBytes e (lowerByte e w) (higherByte e w) = w := by
  cases e <;>
  · simp only [wordOfBytes, lowerByte, higherByte]
    apply BitVec.eq_of_getLsbD_eq
    intro i hi
    rw [BitVec.getLsbD_append]
    by_cases h : i < 8
    · simp [h]
    · have h8 : 8 + (i - 8) = i := by omega
      have h15 : i ≤ 15 := by omega
      simp [h, h8, h15]

theorem add_one_ne (a : Word) : a + 1 ≠ a := by bv_omega

/-- Above an even address lies the other byte of its aligned pair. -/
theorem add_one_eq_xor_of_even (a : Word) (h : a.getLsbD 0 = false) : a + 1 = a ^^^ 1 := by
  have h2 : a &&& 1#16 = 0#16 := by
    ext i hi
    rcases i with _ | i
    · simpa [BitVec.getLsbD_eq_getElem] using h
    · simp
  have e : a + 1#16 = a ||| 1#16 := BitVec.add_eq_or_of_and_eq_zero a 1#16 h2
  show a + 1#16 = a ^^^ 1#16
  rw [e]
  ext i hi
  have := congrArg (fun b : BitVec 16 => b[i]) h2
  simp only [BitVec.getElem_and, BitVec.getElem_zero] at this
  simp only [BitVec.getElem_or, BitVec.getElem_xor]
  revert this
  cases a[i] <;> cases (1#16)[i] <;> simp

theorem xor_one_xor_one (a : Word) : a ^^^ 1 ^^^ 1 = a := by
  rw [BitVec.xor_assoc]; simp

/-- The next instruction's address is even as the PC is. -/
theorem getLsbD_zero_add_two (a : Word) : (a + 2).getLsbD 0 = a.getLsbD 0 := by
  simp [BitVec.getLsbD, Nat.testBit_zero]

/-- A 16-bit store followed by a load of the same address gives the value stored (20_memory.md R50). -/
theorem State.readWord_writeWord_same (s : State) (h : Memory.wf s.mem) (ea v : Word) :
    (s.writeWord ea v).readWord ea = v := by
  simp only [State.readWord, State.byte_writeWord _ h, State.writeWord_params, if_true,
    if_neg (add_one_ne ea).symm, wordOfBytes_bytes]

end Sys2Proof.Machine
end

