-- ==== Sys2Proof/Laws/Operands.lean ====
section
/-! SUPPORT. What the operand forms, the shifts and the conditions are as numbers: the formulas of 00_scope.md section 7
and 44_set.md. -/

namespace Sys2Proof.Machine

theorem shiftAmountImm_toNat (imm5 : BitVec 5) : (shiftAmountImm imm5).toNat = imm5.toNat % 16 := by
  simp [shiftAmountImm]

theorem shiftAmountReg_toNat (v : Word) : (shiftAmountReg v).toNat = v.toNat % 16 := by
  simp [shiftAmountReg]

/-- `sll_16`. -/
theorem sll16_toNat (v : Word) (n : BitVec 4) : (sll16 v n).toNat = v.toNat * 2 ^ n.toNat % 65536 := by
  simp [sll16, Nat.shiftLeft_eq]

/-- `sra_16`: the floor of the signed value divided by a power of two. -/
theorem sra16_toInt (v : Word) (n : BitVec 4) : (sra16 v n).toInt = v.toInt / 2 ^ n.toNat := by
  simp [sra16, BitVec.toInt_sshiftRight, Int.shiftRight_eq_div_pow]

/-- Two numbers whose bits do not overlap add as they `or`. -/
theorem or_eq_add_of_low {k a b : Nat} (hb : b < 2 ^ k) : 2 ^ k * a ||| b = 2 ^ k * a + b :=
  (Nat.two_pow_add_eq_or_of_lt hb a).symm

/-- `rol_16`. -/
theorem rol16_toNat (v : Word) (n : BitVec 4) :
    (rol16 v n).toNat = v.toNat * 2 ^ n.toNat % 65536 + v.toNat / 2 ^ (16 - n.toNat) := by
  have hn : n.toNat < 16 := n.isLt
  have hv : v.toNat < 2 ^ 16 := v.isLt
  have hsplit : (2 : Nat) ^ 16 = 2 ^ (16 - n.toNat) * 2 ^ n.toNat := by rw [← pow_add]; congr 1; omega
  have hdiv : v.toNat / 2 ^ (16 - n.toNat) < 2 ^ n.toNat := by
    rw [Nat.div_lt_iff_lt_mul (by positivity)]; rw [hsplit] at hv; linarith
  have hmod : v.toNat * 2 ^ n.toNat % 65536 = 2 ^ n.toNat * (v.toNat % 2 ^ (16 - n.toNat)) := by
    rw [show (65536 : Nat) = 2 ^ n.toNat * 2 ^ (16 - n.toNat) by rw [mul_comm]; exact hsplit, mul_comm,
      Nat.mul_mod_mul_left]
  simp only [rol16, BitVec.rotateLeft, BitVec.rotateLeftAux, Nat.mod_eq_of_lt hn, BitVec.toNat_or,
    BitVec.toNat_shiftLeft, BitVec.toNat_ushiftRight, Nat.shiftLeft_eq, Nat.shiftRight_eq_div_pow]
  rw [show (2 : Nat) ^ 16 = 65536 from rfl, hmod, or_eq_add_of_low hdiv]

/-- `ror_16`. -/
theorem ror16_toNat (v : Word) (n : BitVec 4) :
    (ror16 v n).toNat = v.toNat / 2 ^ n.toNat + v.toNat % 2 ^ n.toNat * 2 ^ (16 - n.toNat) := by
  have hn : n.toNat < 16 := n.isLt
  have hv : v.toNat < 2 ^ 16 := v.isLt
  have hsplit : (2 : Nat) ^ 16 = 2 ^ (16 - n.toNat) * 2 ^ n.toNat := by rw [← pow_add]; congr 1; omega
  have hdiv : v.toNat / 2 ^ n.toNat < 2 ^ (16 - n.toNat) := by
    rw [Nat.div_lt_iff_lt_mul (by positivity)]; rw [hsplit] at hv; linarith
  have hmod : v.toNat * 2 ^ (16 - n.toNat) % 65536 = 2 ^ (16 - n.toNat) * (v.toNat % 2 ^ n.toNat) := by
    rw [show (65536 : Nat) = 2 ^ (16 - n.toNat) * 2 ^ n.toNat from hsplit, mul_comm, Nat.mul_mod_mul_left]
  simp only [ror16, BitVec.rotateRight, BitVec.rotateRightAux, Nat.mod_eq_of_lt hn, BitVec.toNat_or,
    BitVec.toNat_shiftLeft, BitVec.toNat_ushiftRight, Nat.shiftLeft_eq, Nat.shiftRight_eq_div_pow]
  rw [show (2 : Nat) ^ 16 = 65536 from rfl, hmod, Nat.or_comm, or_eq_add_of_low hdiv]
  ring

/-- SLT's condition is the comparison of the signed values. -/
theorem condLt_iff (a b : Word) : condLt a b = true ↔ a.toInt < b.toInt := by
  simp [condLt, BitVec.slt_iff_toInt_lt]

/-- SLE's condition is the comparison of the signed values. -/
theorem condLe_iff (a b : Word) : condLe a b = true ↔ a.toInt ≤ b.toInt := by
  simp [condLe, BitVec.sle_iff_toInt_le]

/-- SCO's condition is the carry out of the unsigned sum. -/
theorem condCarryOut_iff (a b : Word) : condCarryOut a b = true ↔ 65536 ≤ a.toNat + b.toNat := by
  have ha := a.isLt
  have hb := b.isLt
  have hs : (a.setWidth 17 + b.setWidth 17).toNat = a.toNat + b.toNat := by
    simp only [BitVec.toNat_add, BitVec.toNat_setWidth]; omega
  rw [condCarryOut, BitVec.getLsbD, hs, Nat.testBit_eq_decide_div_mod_eq, decide_eq_true_eq]
  omega

/-- The sign-extended field has the signed value of the field. -/
theorem sext16_toInt {n : Nat} (v : BitVec n) (h : n ≤ 16) : (sext16 v).toInt = v.toInt :=
  BitVec.toInt_signExtend_of_le h

end Sys2Proof.Machine
end

