-- ==== Sys2Proof/Laws/PerInstr.lean ====
section
/-! SUPPORT. The family RowMatch: the word the encoder gives an instruction matches the row of the match/mask table
that bears the instruction's mnemonic (30_encoding.md section 4). One lemma per constructor. -/

namespace Sys2Proof.Laws

/-- Whatever bits stand below the opcode, masking with 0xF800 leaves the opcode alone. -/
theorem and_opcode_mask (op : BitVec 5) (low : BitVec 11) : (op ++ low : Word) &&& 0xF800 = op ++ 0#11 := by
  have h : (0xF800 : Word) = (0b11111#5 ++ 0#11 : Word) := by decide
  rw [h, BitVec.and_append]
  have h1 : op &&& 0b11111#5 = op := BitVec.and_allOnes
  have h2 : low &&& 0#11 = 0#11 := BitVec.and_zero
  rw [h1, h2]

/-- Masking with 0xF803 leaves the opcode and the extension. -/
theorem and_ext_mask (op : BitVec 5) (mid : BitVec 9) (ext : BitVec 2) :
    (op ++ (mid ++ ext) : Word) &&& 0xF803 = op ++ (0#9 ++ ext) := by
  have h : (0xF803 : Word) = (0b11111#5 ++ (0#9 ++ 0b11#2) : Word) := by decide
  rw [h, BitVec.and_append, BitVec.and_append]
  have h1 : op &&& 0b11111#5 = op := BitVec.and_allOnes
  have h2 : mid &&& 0#9 = 0#9 := BitVec.and_zero
  have h3 : ext &&& 0b11#2 = ext := BitVec.and_allOnes
  rw [h1, h2, h3]

/-- The fields below the opcode, as one field. -/
theorem encodeI1_eq (op : BitVec 5) (rs rd : Reg) (imm : BitVec 5) :
    encodeI1 op rs rd imm = op ++ (rs.toBits ++ rd.toBits ++ imm) := by
  simp only [encodeI1]
  rw [BitVec.append_assoc, BitVec.append_assoc, BitVec.append_assoc]
  rfl

theorem encodeI2_eq (op : BitVec 5) (rs : Reg) (imm : BitVec 8) :
    encodeI2 op rs imm = op ++ (rs.toBits ++ imm) := by
  simp only [encodeI2]
  rw [BitVec.append_assoc]
  rfl

theorem encodeR_eq (op : BitVec 5) (rs rt rd : Reg) (ext : BitVec 2) :
    encodeR op rs rt rd ext = op ++ ((rs.toBits ++ rt.toBits ++ rd.toBits) ++ ext) := by
  simp only [encodeR]
  rw [BitVec.append_assoc, BitVec.append_assoc, BitVec.append_assoc, BitVec.append_assoc, BitVec.append_assoc]
  rfl

end Sys2Proof.Laws

namespace Sys2Proof.Laws.RowMatch

/-- The encoded word matches the row of its mnemonic. -/
def Statement (i : Instr) : Prop := ∃ r ∈ opcodeTable, r.mnemonic = i.mnemonic ∧ r.fits (encode i) = true

theorem halt : Statement (.halt) :=
  ⟨⟨"HALT", 0xF800, 0x0000⟩, by simp [opcodeTable, opcodeRowsLow, opcodeRowsHigh], rfl, by decide⟩

theorem siic (rs : Reg) : Statement (.siic rs) :=
  ⟨⟨"SIIC", 0xF800, 0x1000⟩, by simp [opcodeTable, opcodeRowsLow, opcodeRowsHigh], rfl, by
    rw [OpcodeRow.fits, encode, encodeI2_eq, and_opcode_mask]; decide⟩

theorem rti : Statement (.rti) :=
  ⟨⟨"RTI", 0xF800, 0x1800⟩, by simp [opcodeTable, opcodeRowsLow, opcodeRowsHigh], rfl, by decide⟩

theorem j (disp11 : BitVec 11) : Statement (.j disp11) :=
  ⟨⟨"J", 0xF800, 0x2000⟩, by simp [opcodeTable, opcodeRowsLow, opcodeRowsHigh], rfl, by
    rw [OpcodeRow.fits, encode, encodeJ, and_opcode_mask]; decide⟩

theorem jr (rs : Reg) (imm8 : BitVec 8) : Statement (.jr rs imm8) :=
  ⟨⟨"JR", 0xF800, 0x2800⟩, by simp [opcodeTable, opcodeRowsLow, opcodeRowsHigh], rfl, by
    rw [OpcodeRow.fits, encode, encodeI2_eq, and_opcode_mask]; decide⟩

theorem jal (disp11 : BitVec 11) : Statement (.jal disp11) :=
  ⟨⟨"JAL", 0xF800, 0x3000⟩, by simp [opcodeTable, opcodeRowsLow, opcodeRowsHigh], rfl, by
    rw [OpcodeRow.fits, encode, encodeJ, and_opcode_mask]; decide⟩

theorem jalr (rs : Reg) (imm8 : BitVec 8) : Statement (.jalr rs imm8) :=
  ⟨⟨"JALR", 0xF800, 0x3800⟩, by simp [opcodeTable, opcodeRowsLow, opcodeRowsHigh], rfl, by
    rw [OpcodeRow.fits, encode, encodeI2_eq, and_opcode_mask]; decide⟩

theorem addi (rd rs : Reg) (imm5 : BitVec 5) : Statement (.addi rd rs imm5) :=
  ⟨⟨"ADDI", 0xF800, 0x4000⟩, by simp [opcodeTable, opcodeRowsLow, opcodeRowsHigh], rfl, by
    rw [OpcodeRow.fits, encode, encodeI1_eq, and_opcode_mask]; decide⟩

theorem subi (rd rs : Reg) (imm5 : BitVec 5) : Statement (.subi rd rs imm5) :=
  ⟨⟨"SUBI", 0xF800, 0x4800⟩, by simp [opcodeTable, opcodeRowsLow, opcodeRowsHigh], rfl, by
    rw [OpcodeRow.fits, encode, encodeI1_eq, and_opcode_mask]; decide⟩

theorem ori (rd rs : Reg) (imm5 : BitVec 5) : Statement (.ori rd rs imm5) :=
  ⟨⟨"ORI", 0xF800, 0x5000⟩, by simp [opcodeTable, opcodeRowsLow, opcodeRowsHigh], rfl, by
    rw [OpcodeRow.fits, encode, encodeI1_eq, and_opcode_mask]; decide⟩

theorem andi (rd rs : Reg) (imm5 : BitVec 5) : Statement (.andi rd rs imm5) :=
  ⟨⟨"ANDI", 0xF800, 0x5800⟩, by simp [opcodeTable, opcodeRowsLow, opcodeRowsHigh], rfl, by
    rw [OpcodeRow.fits, encode, encodeI1_eq, and_opcode_mask]; decide⟩

theorem beqz (rs : Reg) (imm8 : BitVec 8) : Statement (.beqz rs imm8) :=
  ⟨⟨"BEQZ", 0xF800, 0x6000⟩, by simp [opcodeTable, opcodeRowsLow, opcodeRowsHigh], rfl, by
    rw [OpcodeRow.fits, encode, encodeI2_eq, and_opcode_mask]; decide⟩

theorem bnez (rs : Reg) (imm8 : BitVec 8) : Statement (.bnez rs imm8) :=
  ⟨⟨"BNEZ", 0xF800, 0x6800⟩, by simp [opcodeTable, opcodeRowsLow, opcodeRowsHigh], rfl, by
    rw [OpcodeRow.fits, encode, encodeI2_eq, and_opcode_mask]; decide⟩

theorem ret : Statement (.ret) :=
  ⟨⟨"RET", 0xF800, 0x7000⟩, by simp [opcodeTable, opcodeRowsLow, opcodeRowsHigh], rfl, by decide⟩

theorem st (rd rs : Reg) (imm5 : BitVec 5) : Statement (.st rd rs imm5) :=
  ⟨⟨"ST", 0xF800, 0x8000⟩, by simp [opcodeTable, opcodeRowsLow, opcodeRowsHigh], rfl, by
    rw [OpcodeRow.fits, encode, encodeI1_eq, and_opcode_mask]; decide⟩

theorem ld (rd rs : Reg) (imm5 : BitVec 5) : Statement (.ld rd rs imm5) :=
  ⟨⟨"LD", 0xF800, 0x8800⟩, by simp [opcodeTable, opcodeRowsLow, opcodeRowsHigh], rfl, by
    rw [OpcodeRow.fits, encode, encodeI1_eq, and_opcode_mask]; decide⟩

theorem slbi (rs : Reg) (imm8 : BitVec 8) : Statement (.slbi rs imm8) :=
  ⟨⟨"SLBI", 0xF800, 0x9000⟩, by simp [opcodeTable, opcodeRowsLow, opcodeRowsHigh], rfl, by
    rw [OpcodeRow.fits, encode, encodeI2_eq, and_opcode_mask]; decide⟩

theorem stu (rd rs : Reg) (imm5 : BitVec 5) : Statement (.stu rd rs imm5) :=
  ⟨⟨"STU", 0xF800, 0x9800⟩, by simp [opcodeTable, opcodeRowsLow, opcodeRowsHigh], rfl, by
    rw [OpcodeRow.fits, encode, encodeI1_eq, and_opcode_mask]; decide⟩

theorem roli (rd rs : Reg) (imm5 : BitVec 5) : Statement (.roli rd rs imm5) :=
  ⟨⟨"ROLI", 0xF800, 0xA000⟩, by simp [opcodeTable, opcodeRowsLow, opcodeRowsHigh], rfl, by
    rw [OpcodeRow.fits, encode, encodeI1_eq, and_opcode_mask]; decide⟩

theorem slli (rd rs : Reg) (imm5 : BitVec 5) : Statement (.slli rd rs imm5) :=
  ⟨⟨"SLLI", 0xF800, 0xA800⟩, by simp [opcodeTable, opcodeRowsLow, opcodeRowsHigh], rfl, by
    rw [OpcodeRow.fits, encode, encodeI1_eq, and_opcode_mask]; decide⟩

theorem rori (rd rs : Reg) (imm5 : BitVec 5) : Statement (.rori rd rs imm5) :=
  ⟨⟨"RORI", 0xF800, 0xB000⟩, by simp [opcodeTable, opcodeRowsLow, opcodeRowsHigh], rfl, by
    rw [OpcodeRow.fits, encode, encodeI1_eq, and_opcode_mask]; decide⟩

theorem srai (rd rs : Reg) (imm5 : BitVec 5) : Statement (.srai rd rs imm5) :=
  ⟨⟨"SRAI", 0xF800, 0xB800⟩, by simp [opcodeTable, opcodeRowsLow, opcodeRowsHigh], rfl, by
    rw [OpcodeRow.fits, encode, encodeI1_eq, and_opcode_mask]; decide⟩

theorem lbi (rs : Reg) (imm8 : BitVec 8) : Statement (.lbi rs imm8) :=
  ⟨⟨"LBI", 0xF800, 0xC000⟩, by simp [opcodeTable, opcodeRowsLow, opcodeRowsHigh], rfl, by
    rw [OpcodeRow.fits, encode, encodeI2_eq, and_opcode_mask]; decide⟩

theorem rol (rd rs rt : Reg) : Statement (.rol rd rs rt) :=
  ⟨⟨"ROL", 0xF803, 0xD000⟩, by simp [opcodeTable, opcodeRowsLow, opcodeRowsHigh], rfl, by
    rw [OpcodeRow.fits, encode, encodeR_eq, and_ext_mask]; decide⟩

theorem sll (rd rs rt : Reg) : Statement (.sll rd rs rt) :=
  ⟨⟨"SLL", 0xF803, 0xD001⟩, by simp [opcodeTable, opcodeRowsLow, opcodeRowsHigh], rfl, by
    rw [OpcodeRow.fits, encode, encodeR_eq, and_ext_mask]; decide⟩

theorem ror (rd rs rt : Reg) : Statement (.ror rd rs rt) :=
  ⟨⟨"ROR", 0xF803, 0xD002⟩, by simp [opcodeTable, opcodeRowsLow, opcodeRowsHigh], rfl, by
    rw [OpcodeRow.fits, encode, encodeR_eq, and_ext_mask]; decide⟩

theorem sra (rd rs rt : Reg) : Statement (.sra rd rs rt) :=
  ⟨⟨"SRA", 0xF803, 0xD003⟩, by simp [opcodeTable, opcodeRowsLow, opcodeRowsHigh], rfl, by
    rw [OpcodeRow.fits, encode, encodeR_eq, and_ext_mask]; decide⟩

theorem add (rd rs rt : Reg) : Statement (.add rd rs rt) :=
  ⟨⟨"ADD", 0xF803, 0xD800⟩, by simp [opcodeTable, opcodeRowsLow, opcodeRowsHigh], rfl, by
    rw [OpcodeRow.fits, encode, encodeR_eq, and_ext_mask]; decide⟩

theorem sub (rd rs rt : Reg) : Statement (.sub rd rs rt) :=
  ⟨⟨"SUB", 0xF803, 0xD801⟩, by simp [opcodeTable, opcodeRowsLow, opcodeRowsHigh], rfl, by
    rw [OpcodeRow.fits, encode, encodeR_eq, and_ext_mask]; decide⟩

theorem or (rd rs rt : Reg) : Statement (.or rd rs rt) :=
  ⟨⟨"OR", 0xF803, 0xD802⟩, by simp [opcodeTable, opcodeRowsLow, opcodeRowsHigh], rfl, by
    rw [OpcodeRow.fits, encode, encodeR_eq, and_ext_mask]; decide⟩

theorem and (rd rs rt : Reg) : Statement (.and rd rs rt) :=
  ⟨⟨"AND", 0xF803, 0xD803⟩, by simp [opcodeTable, opcodeRowsLow, opcodeRowsHigh], rfl, by
    rw [OpcodeRow.fits, encode, encodeR_eq, and_ext_mask]; decide⟩

theorem seq (rd rs rt : Reg) : Statement (.seq rd rs rt) :=
  ⟨⟨"SEQ", 0xF800, 0xE000⟩, by simp [opcodeTable, opcodeRowsLow, opcodeRowsHigh], rfl, by
    rw [OpcodeRow.fits, encode, encodeR_eq, and_opcode_mask]; decide⟩

theorem slt (rd rs rt : Reg) : Statement (.slt rd rs rt) :=
  ⟨⟨"SLT", 0xF800, 0xE800⟩, by simp [opcodeTable, opcodeRowsLow, opcodeRowsHigh], rfl, by
    rw [OpcodeRow.fits, encode, encodeR_eq, and_opcode_mask]; decide⟩

theorem sle (rd rs rt : Reg) : Statement (.sle rd rs rt) :=
  ⟨⟨"SLE", 0xF800, 0xF000⟩, by simp [opcodeTable, opcodeRowsLow, opcodeRowsHigh], rfl, by
    rw [OpcodeRow.fits, encode, encodeR_eq, and_opcode_mask]; decide⟩

theorem sco (rd rs rt : Reg) : Statement (.sco rd rs rt) :=
  ⟨⟨"SCO", 0xF800, 0xF800⟩, by simp [opcodeTable, opcodeRowsLow, opcodeRowsHigh], rfl, by
    rw [OpcodeRow.fits, encode, encodeR_eq, and_opcode_mask]; decide⟩

theorem nop : Statement .nop :=
  ⟨⟨"NOP", 0xF800, 0x0800⟩, by simp [opcodeTable, opcodeRowsLow, opcodeRowsHigh], rfl, by decide⟩

end Sys2Proof.Laws.RowMatch
end

