-- ==== Sys2Proof/Laws/Step.lean ====
section
/-! SUPPORT. What the shared ends of an instruction, a fetch and a step answer, said once. -/

namespace Sys2Proof.Machine

/-- An access either faults on an odd address or goes on. -/
theorem ifAligned_next {ea : Word} {k : Result} {t : State} :
    ifAligned ea k = .next t ↔ ea.getLsbD 0 = false ∧ k = .next t := by
  unfold ifAligned
  cases ea.getLsbD 0 <;> simp

theorem ifAligned_of_odd {ea : Word} (k : Result) (h : ea.getLsbD 0 = true) :
    ifAligned ea k = .fault .misalignedData := by rw [ifAligned, h]; rfl

theorem ifAligned_of_even {ea : Word} (k : Result) (h : ea.getLsbD 0 = false) : ifAligned ea k = k := by
  rw [ifAligned, h]; rfl

/-- A fetch that gives a word: even PC, no byte of it written under IFETCH_COHERENCE = fault. -/
theorem State.fetchWord_ok {s : State} {w : Word} :
    s.fetchWord = .ok w ↔
      s.pc.getLsbD 0 = false ∧
      ¬ (s.params.ifetch = .fault ∧ (s.isWritten s.pc = true ∨ s.isWritten (s.pc + 1) = true)) ∧
      w = s.codeWord := by
  rw [State.fetchWord]
  cases s.pc.getLsbD 0 with
  | true => simp
  | false =>
    rw [if_neg (by decide)]
    by_cases h : s.params.ifetch = .fault ∧ (s.isWritten s.pc = true ∨ s.isWritten (s.pc + 1) = true)
    · rw [if_pos h]
      exact ⟨fun e => (by cases e), fun e => absurd h e.2.1⟩
    · rw [if_neg h]
      exact ⟨fun e => ⟨rfl, h, (Except.ok.inj e).symm⟩, fun e => by rw [e.2.2]⟩

/-- A step that answers a next state is the execution of the instruction it fetched. -/
theorem step_next {s t : State} :
    step s = .next t ↔ s.halted = false ∧ ∃ i, s.fetchInstr = .ok i ∧ exec i s = .next t := by
  unfold step
  cases s.halted
  · cases h : s.fetchInstr with
    | ok i => simp
    | error f => simp
  · simp

/-- A machine that runs, steps as the instruction it fetches. -/
theorem step_of_fetch {s : State} {i : Instr} (h : s.halted = false) (hf : s.fetchInstr = .ok i) :
    step s = exec i s := by simp [step, h, hf]

/-- A fetch that gives an instruction: the fetch gives a word, and the word decodes to it or acts as SIIC (R83). -/
theorem State.fetchInstr_ok {s : State} {i : Instr} :
    s.fetchInstr = .ok i ↔ ∃ w, s.fetchWord = .ok w ∧ instrOfWord s.params w = .ok i := by
  unfold State.fetchInstr
  cases s.fetchWord <;> simp

theorem instrOfWord_of_decode {p : Config.Params} {w : Word} {i : Instr} (h : decodeWord w = .ok i) :
    instrOfWord p w = .ok i := by simp [instrOfWord, h]

/-- No instruction is refused: an instruction answers a next state or one of two faults. -/
theorem exec_refused (i : Instr) (s : State) (r : Refusal) : exec i s ≠ .refused r := by
  cases i <;>
    simp only [exec, execHalt, execNop, execSiic, execRti, execJ, execJr, execJal, execJalr, execAddi, execSubi,
      execOri, execAndi, execBeqz, execBnez, execRet, execSt, execLd, execSlbi, execStu, execRoli, execSlli, execRori,
      execSrai, execLbi, execRol, execSll, execRor, execSra, execAdd, execSub, execOr, execAnd, execSeq, execSlt,
      execSle, execSco, State.finish, ifAligned] <;>
    first | (intro h; cases h) | (split <;> intro h <;> cases h)

end Sys2Proof.Machine
end

