-- ==== Sys2Proof/Tests/Slice0.lean ====
section
/-! SUPPORT. The model's own tests: the check of WellFormed, one word per instruction decoded, one or two steps per
instruction, and a witness for the hypotheses of every statement. Expected words and results are those of
95_test_vectors.md, by its section (in test_ld_wraps the two bytes are made to differ). -/

namespace Sys2Proof.Tests

open Sys2Proof Sys2Proof.Machine

/-! ### The check of well-formedness (92_eei_decisions.md D28) -/

theorem test_roli_17_refused : (Instr.roli .R2 .R1 17).wellFormed = false := by decide
theorem test_slli_16_refused : (Instr.slli .R2 .R1 16).wellFormed = false := by decide
theorem test_rori_20_refused : (Instr.rori .R2 .R1 20).wellFormed = false := by decide
theorem test_srai_31_refused : (Instr.srai .R2 .R1 31).wellFormed = false := by decide
theorem test_srai_15_accepted : (Instr.srai .R2 .R1 15).wellFormed = true := by decide
theorem test_addi_minus_1_accepted : (Instr.addi .R2 .R1 (-1)).wellFormed = true := by decide

/-! ### Decoding: one word per constructor (95_test_vectors.md section 2.11) -/

theorem test_decode_special :
    decodeTableWord 16 0x056B = some (.halt) ∧
    decodeTableWord 16 0x0D6B = some (.nop) ∧
    decodeTableWord 16 0x156B = some (.siic .R5) ∧
    decodeTableWord 16 0x1D6B = some (.rti) := by decide
theorem test_decode_jumps :
    decodeTableWord 16 0x256B = some (.j (-661)) ∧
    decodeTableWord 16 0x2D6B = some (.jr .R5 107) ∧
    decodeTableWord 16 0x356B = some (.jal (-661)) ∧
    decodeTableWord 16 0x3D6B = some (.jalr .R5 107) ∧
    decodeTableWord 16 0x756B = some (.ret) := by decide
theorem test_decode_alu_immediate :
    decodeTableWord 16 0x456B = some (.addi .R3 .R5 11) ∧
    decodeTableWord 16 0x4D6B = some (.subi .R3 .R5 11) ∧
    decodeTableWord 16 0x556B = some (.ori .R3 .R5 11) ∧
    decodeTableWord 16 0x5D6B = some (.andi .R3 .R5 11) := by decide
theorem test_decode_shift_immediate :
    decodeTableWord 16 0xA56B = some (.roli .R3 .R5 11) ∧
    decodeTableWord 16 0xAD6B = some (.slli .R3 .R5 11) ∧
    decodeTableWord 16 0xB56B = some (.rori .R3 .R5 11) ∧
    decodeTableWord 16 0xBD6B = some (.srai .R3 .R5 11) := by decide
theorem test_decode_branches :
    decodeTableWord 16 0x656B = some (.beqz .R5 107) ∧
    decodeTableWord 16 0x6D6B = some (.bnez .R5 107) := by decide
theorem test_decode_memory :
    decodeTableWord 16 0x856B = some (.st .R3 .R5 11) ∧
    decodeTableWord 16 0x8D6B = some (.ld .R3 .R5 11) ∧
    decodeTableWord 16 0x9D6B = some (.stu .R3 .R5 11) := by decide
theorem test_decode_load_immediate :
    decodeTableWord 16 0x956B = some (.slbi .R5 0x6B) ∧
    decodeTableWord 16 0xC56B = some (.lbi .R5 107) := by decide
theorem test_decode_shift_register :
    decodeTableWord 16 0xD14C = some (.rol .R3 .R1 .R2) ∧
    decodeTableWord 16 0xD14D = some (.sll .R3 .R1 .R2) ∧
    decodeTableWord 16 0xD14E = some (.ror .R3 .R1 .R2) ∧
    decodeTableWord 16 0xD14F = some (.sra .R3 .R1 .R2) := by decide
theorem test_decode_alu_register :
    decodeTableWord 16 0xD94C = some (.add .R3 .R1 .R2) ∧
    decodeTableWord 16 0xD94D = some (.sub .R3 .R1 .R2) ∧
    decodeTableWord 16 0xD94E = some (.or .R3 .R1 .R2) ∧
    decodeTableWord 16 0xD94F = some (.and .R3 .R1 .R2) := by decide
theorem test_decode_set :
    decodeTableWord 16 0xE56B = some (.seq .R2 .R5 .R3) ∧
    decodeTableWord 16 0xED6B = some (.slt .R2 .R5 .R3) ∧
    decodeTableWord 16 0xF56B = some (.sle .R2 .R5 .R3) ∧
    decodeTableWord 16 0xFD6B = some (.sco .R2 .R5 .R3) := by decide
theorem test_decode_unassigned : decodeTableWord 16 0x7D6B = none ∧ decodeTableWord 16 0xCD6B = none := by decide

/-! ### The assembler (R87 to R89, D28; words of sections 2.2 to 2.4) -/

theorem test_assemble :
    (assemble "SUBI" [.reg .R2, .reg .R1, .imm 3]).map encode = some 0x4943 ∧
    (assemble "SUB" [.reg .R3, .reg .R1, .reg .R2]).map encode = some 0xD94D ∧
    (assemble "ST" [.reg .R2, .reg .R1, .imm (-2)]).map encode = some 0x815E ∧
    (assemble "SLBI" [.reg .R1, .imm 255]).map encode = some 0x91FF := by decide
theorem test_assemble_refuses :
    assemble "ADDI" [.reg .R2, .reg .R1, .imm 16] = none ∧ assemble "ORI" [.reg .R2, .reg .R1, .imm (-1)] = none ∧
    assemble "SLLI" [.reg .R2, .reg .R1, .imm 16] = none ∧ assemble "LBI" [.reg .R1, .imm 128] = none ∧
    assemble "J" [.imm 1024] = none ∧ assemble "XOR" [.reg .R3, .reg .R1, .reg .R2] = none := by decide

/-! ### One step (95_test_vectors.md sections 2.1 to 2.10; section 2 says how a row is read) -/

/-- A machine about to run the word `w` at `pc`. -/
def machine (p : Config.Params) (pc w : Word) (g : Regs) (epc : Word) (m : Memory) : State :=
  { State.launch p g epc (Memory.writeWord m p.endian pc w) with pc := pc }

/-- R1 and R2 as given, the others with values of their own. -/
def regs12 (a b : Word) : Regs :=
  { r0 := 0x1111, r1 := a, r2 := b, r3 := 0xFFFF, r4 := 0x4444, r5 := 0x5555, r6 := 0x6666, r7 := 0x0044 }

/-- The word `w` at 0x0100 with R1, R2 and an empty memory beside it. -/
def at100 (w a b : Word) : State := machine Config.Params.default 0x0100 w (regs12 a b) 0x0300 []

/-- What a register holds after a step. -/
def regAfter (s : State) (r : Reg) : Option Word :=
  match step s with
  | .next t => some (t.reg r)
  | .fault _ => none
  | .refused _ => none

/-- The PC after a step. -/
def pcAfter (s : State) : Option Word :=
  match step s with
  | .next t => some t.pc
  | .fault _ => none
  | .refused _ => none

/-- EPC and the PC after a step. -/
def epcPcAfter (s : State) : Option (Word × Word) :=
  match step s with
  | .next t => some (t.epc, t.pc)
  | .fault _ => none
  | .refused _ => none

/-- Two bytes of memory after a step. -/
def bytesAfter (s : State) (a : Word) : Option (Byte × Byte) :=
  match step s with
  | .next t => some (t.byte a, t.byte (a + 1))
  | .fault _ => none
  | .refused _ => none

/-- The mark of the end of the run and the PC after a step. -/
def haltedPcAfter (s : State) : Option (Bool × Word) :=
  match step s with
  | .next t => some (t.halted, t.pc)
  | .fault _ => none
  | .refused _ => none

/-- The fault of a step. -/
def faultOf (s : State) : Option Fault :=
  match step s with
  | .next _ => none
  | .fault f => some f
  | .refused _ => none

theorem test_halt_wraps : haltedPcAfter (machine Config.Params.default 0xFFFE 0x0000 (regs12 0 0) 0 []) =
    some (true, 0x0000) := by decide
theorem test_nop : haltedPcAfter (at100 0x0D5A 0 0) = some (false, 0x0102) := by decide

theorem test_addi_sign_extends : regAfter (at100 0x415F 0x0000 0x0000) .R2 = some 0xFFFF := by decide
theorem test_addi_overflow_wraps : regAfter (at100 0x4141 0x7FFF 0x0000) .R2 = some 0x8000 := by decide
theorem test_subi_imm_minus_rs : regAfter (at100 0x4943 0x0005 0x0000) .R2 = some 0xFFFE := by decide
theorem test_subi_onto_itself : regAfter (at100 0x4920 0x0001 0x0000) .R1 = some 0xFFFF := by decide
theorem test_ori_zero_extends : regAfter (at100 0x515F 0xFF00 0x0000) .R2 = some 0xFF1F := by decide
theorem test_andi_clears_high : regAfter (at100 0x595F 0xFFFF 0x0000) .R2 = some 0x001F := by decide
theorem test_roli_bit_15 : regAfter (at100 0xA141 0x8001 0x0000) .R2 = some 0x0003 := by decide
theorem test_roli_ignores_bit_4 : regAfter (at100 0xA150 0x1234 0x0000) .R2 = some 0x1234 := by decide
theorem test_slli_loses_bit_15 : regAfter (at100 0xA941 0x8001 0x0000) .R2 = some 0x0002 := by decide
theorem test_slli_ignores_bit_4 : regAfter (at100 0xA950 0x8001 0x0000) .R2 = some 0x8001 := by decide
theorem test_rori_bit_0 : regAfter (at100 0xB141 0x8001 0x0000) .R2 = some 0xC000 := by decide
theorem test_rori_15 : regAfter (at100 0xB14F 0x8001 0x0000) .R2 = some 0x0003 := by decide
theorem test_srai_all_sign : regAfter (at100 0xB94F 0x8000 0x0000) .R2 = some 0xFFFF := by decide
theorem test_srai_ignores_bit_4 : regAfter (at100 0xB95F 0x8000 0x0000) .R2 = some 0xFFFF := by decide
theorem test_add_wraps : regAfter (at100 0xD94C 0xFFFF 0x0001) .R3 = some 0x0000 := by decide
theorem test_add_all_fields : regAfter (at100 0xD924 0x4000 0x0000) .R1 = some 0x8000 := by decide
theorem test_sub_rt_minus_rs : regAfter (at100 0xD94D 0x0005 0x0007) .R3 = some 0x0002 := by decide
theorem test_or : regAfter (at100 0xD94E 0xF0F0 0x0FF0) .R3 = some 0xFFF0 := by decide
theorem test_and : regAfter (at100 0xD94F 0xF0F0 0x0FF0) .R3 = some 0x00F0 := by decide
theorem test_rol_low_4_bits : regAfter (at100 0xD14C 0x1234 0xFFF4) .R3 = some 0x2341 := by decide
theorem test_sll_16_is_0 : regAfter (at100 0xD14D 0x0001 0x0010) .R3 = some 0x0001 := by decide
theorem test_sll_onto_itself : regAfter (at100 0xD125 0x0003 0x0000) .R1 = some 0x0018 := by decide
theorem test_ror_15 : regAfter (at100 0xD14E 0x8001 0xFFFF) .R3 = some 0x0003 := by decide
theorem test_sra_14 : regAfter (at100 0xD14F 0x4000 0xFFFE) .R3 = some 0x0001 := by decide
theorem test_sra_sign : regAfter (at100 0xD14F 0xF234 0x0004) .R3 = some 0xFF23 := by decide
theorem test_seq_ext_ignored : regAfter (at100 0xE12F 0x0005 0x0000) .R3 = some 0x0001 := by decide
theorem test_seq_all_bits : regAfter (at100 0xE14C 0x8000 0x0000) .R3 = some 0x0000 := by decide
theorem test_slt_overflow : regAfter (at100 0xE94C 0x8000 0x7FFF) .R3 = some 0x0001 := by decide
theorem test_slt_signed : regAfter (at100 0xE94C 0x0000 0xFFFF) .R3 = some 0x0000 := by decide
theorem test_sle_equal : regAfter (at100 0xF14C 0x0005 0x0005) .R3 = some 0x0001 := by decide
theorem test_sle_overflow : regAfter (at100 0xF14C 0x7FFF 0x8000) .R3 = some 0x0000 := by decide
theorem test_sco_carry : regAfter (at100 0xF94C 0x8000 0x8000) .R3 = some 0x0001 := by decide
theorem test_sco_no_carry : regAfter (at100 0xF94C 0x7FFF 0x7FFF) .R3 = some 0x0000 := by decide
theorem test_lbi_sign_extends : regAfter (at100 0xC180 0x1234 0x0000) .R1 = some 0xFF80 := by decide
theorem test_slbi_no_smear : regAfter (at100 0x9180 0x12FF 0x0000) .R1 = some 0xFF80 := by decide
theorem test_jal_link : regAfter (at100 0x3004 0x0000 0x0000) .R7 = some 0x0102 := by decide
theorem test_jalr_link : regAfter (at100 0x3900 0x2000 0x0000) .R7 = some 0x0102 := by decide
theorem test_stu_updates : regAfter (at100 0x9942 0x2000 0xBEEF) .R1 = some 0x2002 := by decide
theorem test_beqz_taken : pcAfter (at100 0x61FA 0x0000 0x0000) = some 0x00FC := by decide
theorem test_beqz_all_bits : pcAfter (at100 0x6108 0x8000 0x0000) = some 0x0102 := by decide
theorem test_bnez_taken : pcAfter (at100 0x69FA 0xFFFF 0x0000) = some 0x00FC := by decide
theorem test_bnez_not_taken : pcAfter (at100 0x6908 0x0000 0x0000) = some 0x0102 := by decide
theorem test_j_backward : pcAfter (at100 0x2400 0x0000 0x0000) = some 0xFD02 := by decide
theorem test_j_odd_target : pcAfter (at100 0x2001 0x0000 0x0000) = some 0x0103 := by decide
theorem test_jr : pcAfter (at100 0x29FC 0x2000 0x0000) = some 0x1FFC := by decide
theorem test_jr_wraps : pcAfter (at100 0x297E 0xFFF0 0x0000) = some 0x006E := by decide
theorem test_jal_target : pcAfter (at100 0x36FE 0x0000 0x0000) = some 0x0000 := by decide
theorem test_ret : pcAfter (at100 0x77FF 0x0000 0x0000) = some 0x0044 := by decide
theorem test_jalr_old_r7 :
    pcAfter (machine Config.Params.default 0x0100 0x3F04 { regs12 0 0 with r7 := 0x3000 } 0 []) = some 0x3004 := by decide
theorem test_st_big : bytesAfter (at100 0x815E 0x2000 0xBEEF) 0x1FFE = some (0xBE, 0xEF) := by decide
theorem test_st_little :
    bytesAfter (machine { Config.Params.default with endian := .little } 0x0100 0x8142 (regs12 0xFFFE 0xBEEF) 0 []) 0x0000 =
      some (0xEF, 0xBE) := by decide
theorem test_stu_stores_old_rd : bytesAfter (at100 0x9922 0x2000 0x0000) 0x2002 = some (0x20, 0x00) := by decide
theorem test_ld_wraps :
    regAfter (machine Config.Params.default 0x0100 0x895C (regs12 0x0002 0) 0 [(0xFFFE, 0x5A), (0xFFFF, 0xA5)]) .R2 =
      some 0x5AA5 := by decide
theorem test_siic_in_handler :
    epcPcAfter (machine Config.Params.default 0x0002 0x1000 (regs12 0 0) 0x0110 []) = some (0x0004, 0x0002) := by decide
theorem test_rti : epcPcAfter (machine Config.Params.default 0x0004 0x1FFF (regs12 0 0) 0x0006 []) =
    some (0x0006, 0x0006) := by decide
theorem test_rti_nop :
    epcPcAfter (machine { Config.Params.default with exc := false } 0x0100 0x1800 (regs12 0 0) 0x0300 []) =
      some (0x0300, 0x0102) := by decide

/-! ### Faults (section 2.10) -/

theorem test_odd_data_address : faultOf (at100 0x8141 0x2000 0xBEEF) = some .misalignedData ∧
    faultOf (at100 0x8941 0x2000 0x0000) = some .misalignedData ∧
    faultOf (at100 0x9943 0x2000 0xBEEF) = some .misalignedData := by decide
theorem test_odd_fetch : faultOf { at100 0x0800 0 0 with pc := 0x0181 } = some .misalignedFetch := by decide
theorem test_fetch_after_store :
    faultOf { at100 0x0800 0 0 with written := [0x0100, 0x0101] } = some .fetchAfterStore := by decide
theorem test_unassigned : faultOf (at100 0x7FFF 0 0) = some .unassignedOpcode := by decide
theorem test_unassigned_as_siic :
    epcPcAfter (machine { Config.Params.default with unassigned := .illegalop } 0x0100 0xC800 (regs12 0 0) 0 []) =
      some (0x0102, 0x0002) := by decide
theorem test_siic_absent :
    faultOf (machine { Config.Params.default with exc := false } 0x0100 0x1000 (regs12 0 0) 0 []) =
      some .siicNotImplemented := by decide

/-! ### The first step after reset -/

theorem test_first_step_runs_the_loaded_word :
    regAfter (State.reset.withFetchWord 16 0xC17F) .R1 = some 0x007F := by decide


/-! ### Witnesses: for every statement with hypotheses, operands and states that meet them, clause by clause -/

/-- The machines of the witnesses: one per value of a parameter. -/
def little : Config.Params := { Config.Params.default with endian := .little }
def split : Config.Params := { Config.Params.default with ifetch := .split }
def unified : Config.Params := { Config.Params.default with ifetch := .unified }
def illegalop : Config.Params := { Config.Params.default with unassigned := .illegalop }
def noExc : Config.Params := { Config.Params.default with exc := false }

/-- A launch with the bytes `m` has the invariant. -/
theorem inv_launched (p : Config.Params) (pc : Word) (g : Regs) (e : Word) (m : Memory) (h : Memory.wf m) :
    { State.launch p g e m with pc := pc }.Inv :=
  ⟨h, h, ⟨List.Pairwise.nil, by simp [State.launch]⟩, fun _ => rfl, fun _ _ _ => rfl, fun _ => rfl⟩

/-- A machine that has stored 0xBEEF at 0x2000, with the marks of that store. -/
def stored : State :=
  { State.launch Config.Params.default (regs12 0x2000 0xBEEF) 0x0300 [(0x0102, 0x08)] with
    pc := 0x0102, mem := [(0x0102, 0x08), (0x2000, 0xBE), (0x2001, 0xEF)], written := [0x2000, 0x2001] }

theorem isWritten_stored (a : Word) : stored.isWritten a = (a == 0x2000 || a == 0x2001) := by
  rw [Bool.eq_iff_iff]
  simp only [State.isWritten, stored, List.contains_iff_mem, List.mem_cons, List.not_mem_nil, or_false,
    Bool.or_eq_true, beq_iff_eq, ← BitVec.toNat_inj]
  exact Iff.rfl

theorem witness_inv_with_marks : stored.Inv where
  mem_wf := by decide
  image_wf := by decide
  written_wf := by decide
  written_in_pairs a := by
    have h : ∀ b c : Word, (a ^^^ 1 == b) = (a == b ^^^ 1) := fun b _ => by
      rw [Bool.eq_iff_iff, beq_iff_eq, beq_iff_eq]
      exact ⟨fun e => by rw [← e, xor_one_xor_one], fun e => by rw [e, xor_one_xor_one]⟩
    rw [isWritten_stored, isWritten_stored, h _ 0, h _ 0, Bool.or_comm]
    rfl
  unwritten_as_loaded _ a ha := by
    rw [isWritten_stored] at ha
    simp only [Bool.or_eq_false_iff, beq_eq_false_iff_ne, ne_eq, ← BitVec.toNat_inj] at ha
    have h1 : 0x2000 ≠ a.toNat := fun e => ha.1 e.symm
    have h2 : 0x2001 ≠ a.toNat := fun e => ha.2 e.symm
    simp only [State.byte, State.imageByte, stored, State.launch, Memory.read, h1, h2, if_false]
  written_only_when_kept h := absurd rfl h

/-- The machine of most witnesses, about to run a HALT, which is the word 0 that empty memory reads as. -/
def halting (p : Config.Params) : State := { State.launch p (regs12 0x2000 0xBEEF) 0x0300 [] with pc := 0x0100 }

theorem canFetch_halting (p : Config.Params) : (halting p).CanFetch :=
  ⟨rfl, (by decide : (0x0100 : Word).getLsbD 0 = false), fun h => by rcases h.2 with h | h <;> cases h⟩

theorem witness_DecodeOfEncodeIsTheInstruction :
    (Instr.srai .R2 .R1 15).wellFormed = true ∧ (Instr.addi .R7 .R0 (-16)).wellFormed = true := by decide

theorem witness_DecodedWordReencodesUpToIgnoredBits :
    decodeWord 0xA151 = .ok (.roli .R2 .R1 1) ∧
    (0xA141 : Word) &&& (Instr.roli .R2 .R1 1).careMask = 0xA151 &&& (Instr.roli .R2 .R1 1).careMask ∧
    decodeWord 0x07FF = .ok .halt ∧ (0x0000 : Word) &&& Instr.halt.careMask = 0x07FF &&& Instr.halt.careMask :=
  ⟨rfl, by decide, rfl, by decide⟩

theorem witness_EveryWordMatchesOneRowOrIsUnassigned :
    decodeWord 0xD94F = .ok (.and .R3 .R1 .R2) ∧ decodeWord 0x7FFF = .error (.unassignedOpcode 0b01111) ∧
    decodeWord 0xC800 = .error (.unassignedOpcode 0b11001) ∧ UnassignedWord 0x7800 ∧ UnassignedWord 0xCFFF :=
  ⟨rfl, rfl, rfl, .inl (by decide), .inr (by decide)⟩

theorem witness_AssemblerGivesExactlyTheInstructionOfItsText :
    assemble "ORI" [.reg .R2, .reg .R1, .imm 31] = some (.ori .R2 .R1 31) ∧
    (Instr.j (-1024)).wellFormed = true ∧ (Instr.j (-1024)).mnemonic = "J" ∧
    (Instr.j (-1024)).operands = [.imm (-1024)] := by decide

theorem witness_StepRunsTheDecodedInstruction :
    ((halting little).CanFetch ∧ (halting little).params.ifetch ≠ .split ∧
      decodeBytes .little [(halting little).byte 0x0100, (halting little).byte (0x0100 + 1)] = .ok (.halt, [])) ∧
    ((halting split).CanFetch ∧ (halting split).params.ifetch = .split ∧
      decodeBytes .big [(halting split).imageByte 0x0100, (halting split).imageByte (0x0100 + 1)] = .ok (.halt, [])) :=
  ⟨⟨canFetch_halting _, by decide, rfl⟩, ⟨canFetch_halting _, rfl, rfl⟩⟩

/-- A machine about to run the word of a high byte, its low byte 0. -/
def wordNext (p : Config.Params) (high : Byte) : State :=
  { State.launch p (regs12 0 0) 0x0300 [(0x0100, high)] with pc := 0x0100 }

theorem canFetch_wordNext (p : Config.Params) (high : Byte) : (wordNext p high).CanFetch :=
  ⟨rfl, (by decide : (0x0100 : Word).getLsbD 0 = false), fun h => by rcases h.2 with h | h <;> cases h⟩

theorem witness_UnassignedOpcodeFaultsOrActsAsSiic :
    ((wordNext Config.Params.default 0x78).CanFetch ∧
      UnassignedWord (wordNext Config.Params.default 0x78).codeWord ∧
      (wordNext Config.Params.default 0x78).params.unassigned = .fault) ∧
    ((wordNext illegalop 0xCF).CanFetch ∧ UnassignedWord (wordNext illegalop 0xCF).codeWord ∧
      (wordNext illegalop 0xCF).params.unassigned = .illegalop) :=
  ⟨⟨canFetch_wordNext _ _, .inl (by decide), rfl⟩, ⟨canFetch_wordNext _ _, .inr (by decide), rfl⟩⟩

/-- A machine about to run ST R0, R1, 0 with an odd R1. -/
def storeNext : State :=
  { State.launch Config.Params.default (regs12 0xFFFF 0) 0x0300 [(0x0100, 0x81)] with pc := 0x0100 }

/-- Each condition of a stop holds somewhere, in the order of the statement. -/
theorem witness_StepStopsExactlyWhereTheSpecSays :
    { halting Config.Params.default with halted := true }.halted = true ∧
    { halting Config.Params.default with pc := 0xFFFF }.pc.getLsbD 0 = true ∧
    { stored with pc := 0x2000 }.FetchesStored ∧
    ((wordNext Config.Params.default 0x78).CanFetch ∧
      UnassignedWord (wordNext Config.Params.default 0x78).codeWord) ∧
    ((wordNext noExc 0x10).CanFetch ∧ (wordNext noExc 0x10).codeWord.extractLsb 15 11 = 0b00010#5) ∧
    ((wordNext { noExc with unassigned := .illegalop } 0xC8).CanFetch ∧
      UnassignedWord (wordNext { noExc with unassigned := .illegalop } 0xC8).codeWord) ∧
    (storeNext.CanFetch ∧ decodeWord storeNext.codeWord = .ok (.st .R0 .R1 0) ∧
      dataAddress storeNext (.st .R0 .R1 0) = some 0xFFFF ∧ (0xFFFF : Word).getLsbD 0 = true) :=
  ⟨rfl, by decide, ⟨rfl, .inl (by decide)⟩, ⟨canFetch_wordNext _ _, .inl (by decide)⟩,
    ⟨canFetch_wordNext _ _, by decide⟩,
    ⟨canFetch_wordNext _ _, .inr (by decide)⟩,
    ⟨rfl, rfl, fun h => by rcases h.2 with h | h <;> cases h⟩, rfl, rfl, by decide⟩

theorem witness_LoadedWordIsTheNextInstruction : stored.Inv ∧ decodeWord 0xC17F = .ok (.lbi .R1 127) :=
  ⟨witness_inv_with_marks, rfl⟩

theorem witness_LaunchMeetsTheInvariant : Memory.wf [(0x0000, 0xC1), (0xFFFF, 0x01)] := by decide

theorem witness_StepKeepsTheInvariant : stored.Inv ∧ step stored = .next { stored with pc := 0x0104 } :=
  ⟨witness_inv_with_marks, rfl⟩

theorem witness_LaunchArgumentsStayAndMarksAreNeverCleared :
    step stored = .next { stored with pc := 0x0104 } ∧ stored.isWritten 0x2001 = true := ⟨rfl, by decide⟩

theorem witness_EpcWrittenOnlyBySiicReadOnlyByRti :
    exec (.siic .R0) stored = .next { stored with epc := 0x0104, pc := 0x0002 } ∧
    exec .nop stored = .next { stored with pc := 0x0104 } ∧
    (Instr.nop ≠ .rti ∧ (halting noExc).params.exc = false) ∧ stored.params.exc = true ∧
    exec .rti (halting noExc) = .next { halting noExc with pc := 0x0102 } := ⟨rfl, rfl, by decide, rfl, rfl⟩

theorem witness_InstructionTouchesOnlyItsListedRegisters :
    exec (.lbi .R1 0) stored = .next { stored with regs := regs12 0x0000 0xBEEF, pc := 0x0104 } ∧
    Reg.R1 ∉ readsRegs (.lbi .R1 0) ∧ Reg.R7 ∉ readsRegs (.add .R1 .R2 .R3) := ⟨rfl, by decide, by decide⟩

/-- One instruction of every clause, branches both ways. -/
theorem witness_EveryInstructionSetsThePcByItsRule :
    (exec (.j 0) stored = .next { stored with pc := 0x0104 }) ∧
    (∃ t, exec (.jal (-1024)) stored = .next t) ∧ (∃ t, exec (.jr .R1 0) stored = .next t) ∧
    (∃ t, exec (.jalr .R7 (-128)) stored = .next t) ∧ (∃ t, exec (.beqz .R1 127) stored = .next t) ∧
    (∃ t, exec (.beqz .R1 127) (stored.setReg .R1 0) = .next t) ∧ (∃ t, exec (.bnez .R1 127) stored = .next t) ∧
    (∃ t, exec (.bnez .R1 127) (stored.setReg .R1 0) = .next t) ∧ (∃ t, exec .ret stored = .next t) ∧
    (∃ t, exec .rti stored = .next t) ∧ (∃ t, exec .rti (halting noExc) = .next t) ∧
    (∃ t, exec (.siic .R0) stored = .next t) ∧ (∃ t, exec .halt stored = .next t) :=
  ⟨rfl, ⟨_, rfl⟩, ⟨_, rfl⟩, ⟨_, rfl⟩, ⟨_, rfl⟩, ⟨_, rfl⟩, ⟨_, rfl⟩, ⟨_, rfl⟩, ⟨_, rfl⟩, ⟨_, rfl⟩, ⟨_, rfl⟩,
    ⟨_, rfl⟩, ⟨_, rfl⟩⟩

theorem witness_OnlyStoresWriteMemory : stored.Inv ∧ (∃ t, exec (.st .R2 .R1 0) stored = .next t) ∧
    (∃ t, exec (.stu .R2 .R1 (-16)) stored = .next t) ∧ (∃ t, exec (.ld .R2 .R1 14) stored = .next t) :=
  ⟨witness_inv_with_marks, ⟨_, rfl⟩, ⟨_, rfl⟩, ⟨_, rfl⟩⟩

/-- The halted machine that a HALT leaves. -/
def afterHalt : State := { halting Config.Params.default with pc := 0x0102, halted := true }

theorem witness_OnlyHaltSetsHaltedAndNothingFollows :
    exec .halt (halting Config.Params.default) = .next afterHalt ∧
    step (halting Config.Params.default) = .next afterHalt ∧
    Runs (halting Config.Params.default) afterHalt ∧ afterHalt.Final :=
  ⟨rfl, rfl, .snoc (.refl _) rfl, rfl⟩

/-- A word of every opcode that a result statement speaks of, in the order of the statements. -/
theorem witness_words_of_the_result_statements :
    (0x07FF : Word).extractLsb 15 11 = 0b00000#5 ∧ (0x0FFF : Word).extractLsb 15 11 = 0b00001#5 ∧
    (0x4143 : Word).extractLsb 15 11 = 0b01000#5 ∧ (0x4943 : Word).extractLsb 15 11 = 0b01001#5 ∧
    (0x515F : Word).extractLsb 15 11 = 0b01010#5 ∧ (0x595F : Word).extractLsb 15 11 = 0b01011#5 ∧
    (0xA151 : Word).extractLsb 15 11 = 0b10100#5 ∧ (0xB154 : Word).extractLsb 15 11 = 0b10110#5 ∧
    (0xA950 : Word).extractLsb 15 11 = 0b10101#5 ∧ (0xB95F : Word).extractLsb 15 11 = 0b10111#5 ∧
    ((0xD94C : Word).extractLsb 15 11 = 0b11011#5 ∧ (0xD94C : Word).extractLsb 1 0 = 0b00#2) ∧
    ((0xD94D : Word).extractLsb 15 11 = 0b11011#5 ∧ (0xD94D : Word).extractLsb 1 0 = 0b01#2) ∧
    ((0xD94E : Word).extractLsb 15 11 = 0b11011#5 ∧ (0xD94E : Word).extractLsb 1 0 = 0b10#2) ∧
    ((0xD94F : Word).extractLsb 15 11 = 0b11011#5 ∧ (0xD94F : Word).extractLsb 1 0 = 0b11#2) ∧
    ((0xD14C : Word).extractLsb 15 11 = 0b11010#5 ∧ (0xD14C : Word).extractLsb 1 0 = 0b00#2) ∧
    ((0xD14D : Word).extractLsb 15 11 = 0b11010#5 ∧ (0xD14D : Word).extractLsb 1 0 = 0b01#2) ∧
    ((0xD14E : Word).extractLsb 15 11 = 0b11010#5 ∧ (0xD14E : Word).extractLsb 1 0 = 0b10#2) ∧
    ((0xD14F : Word).extractLsb 15 11 = 0b11010#5 ∧ (0xD14F : Word).extractLsb 1 0 = 0b11#2) ∧
    (0xE12F : Word).extractLsb 15 11 = 0b11100#5 ∧ (0xFD6B : Word).extractLsb 15 11 = 0b11111#5 ∧
    (0xED6B : Word).extractLsb 15 11 = 0b11101#5 ∧ (0xF56B : Word).extractLsb 15 11 = 0b11110#5 := by decide

/-- The same for the branches, the loads of an immediate, the jumps, the memory and the exception instructions. -/
theorem witness_words_of_the_other_result_statements :
    (0x617F : Word).extractLsb 15 11 = 0b01100#5 ∧ (0x6980 : Word).extractLsb 15 11 = 0b01101#5 ∧
    (0xC180 : Word).extractLsb 15 11 = 0b11000#5 ∧ (0x91FF : Word).extractLsb 15 11 = 0b10010#5 ∧
    (0x2400 : Word).extractLsb 15 11 = 0b00100#5 ∧ (0x2980 : Word).extractLsb 15 11 = 0b00101#5 ∧
    (0x77FF : Word).extractLsb 15 11 = 0b01110#5 ∧ (0x37FE : Word).extractLsb 15 11 = 0b00110#5 ∧
    (0x3F04 : Word).extractLsb 15 11 = 0b00111#5 ∧ (0x8150 : Word).extractLsb 15 11 = 0b10000#5 ∧
    (0x894F : Word).extractLsb 15 11 = 0b10001#5 ∧ (0x9922 : Word).extractLsb 15 11 = 0b10011#5 ∧
    (0x15A5 : Word).extractLsb 15 11 = 0b00010#5 ∧ (0x1FFF : Word).extractLsb 15 11 = 0b00011#5 := by decide

theorem witness_RoliRoriResult : ((1 : BitVec 5).toNat + (15 : BitVec 5).toNat) % 16 = 0 ∧
    ((0 : BitVec 5).toNat + (16 : BitVec 5).toNat) % 16 = 0 ∧
    ((31 : BitVec 5).toNat + (17 : BitVec 5).toNat) % 16 = 0 := by decide

/-- The odd PC that a branch, a jump or RTI may leave: BEQZ R1, 127 with R1 = 0 (section 2.6). -/
theorem witness_OddPcStopsNextStep :
    ∃ t, exec (.beqz .R1 127) (machine Config.Params.default 0x0100 0x617F (regs12 0 0) 0 []) = .next t ∧
      t.halted = false ∧ t.pc.getLsbD 0 = true := ⟨_, rfl, rfl, by decide⟩

theorem witness_StoreResult_big : stored.Inv ∧
    (0x1FFE : Word) = BitVec.ofInt 16 ((stored.reg .R1).toNat + (-2 : BitVec 5).toInt) ∧
    (0x1FFE : Word).getLsbD 0 = false ∧ stored.params.endian = .big := ⟨witness_inv_with_marks, by decide, by decide, rfl⟩

/-- The address wraps below 0 (section 2.3). -/
theorem witness_StoreResult_little :
    { State.launch little (regs12 0x0008 0x1234) 0x0300 [] with pc := 0x0100 }.Inv ∧
    (0xFFF8 : Word) = BitVec.ofInt 16 (((State.launch little (regs12 0x0008 0x1234) 0x0300 []).reg .R1).toNat +
      (-16 : BitVec 5).toInt) ∧
    (0xFFF8 : Word).getLsbD 0 = false ∧ little.endian = .little :=
  ⟨inv_launched _ _ _ _ _ (by decide), by decide, by decide, rfl⟩

/-- An odd base and an odd displacement (section 2.3), in both byte orders. -/
theorem witness_LoadResult :
    (0x2000 : Word) = BitVec.ofInt 16 (((State.launch little (regs12 0x1FF1 0) 0 []).reg .R1).toNat +
      (15 : BitVec 5).toInt) ∧ (0x2000 : Word).getLsbD 0 = false ∧
    (State.launch little (regs12 0x1FF1 0) 0 []).params.endian = .little ∧
    (0x2000 : Word) = BitVec.ofInt 16 ((stored.reg .R1).toNat + (0 : BitVec 5).toInt) ∧
    stored.params.endian = .big := ⟨by decide, by decide, rfl, by decide, rfl⟩

/-- STU R1, R1, 2 and STU R2, R1, -2, in both byte orders. -/
theorem witness_StoreWithUpdateResult : stored.Inv ∧
    (0x2002 : Word) = BitVec.ofInt 16 ((stored.reg .R1).toNat + (2 : BitVec 5).toInt) ∧
    (0x2002 : Word).getLsbD 0 = false ∧ stored.params.endian = .big ∧
    { State.launch little (regs12 0x0000 0x1111) 0x0300 [] with pc := 0x0100 }.Inv ∧
    (0xFFFE : Word) = BitVec.ofInt 16 (((State.launch little (regs12 0x0000 0x1111) 0x0300 []).reg .R1).toNat +
      (-2 : BitVec 5).toInt) ∧ (0xFFFE : Word).getLsbD 0 = false ∧ little.endian = .little :=
  ⟨witness_inv_with_marks, by decide, by decide, rfl, inv_launched _ _ _ _ _ (by decide), by decide, by decide, rfl⟩

theorem witness_OddDataAddressFaults :
    ((stored.reg .R1).toNat + (3 : BitVec 5).toInt) % 2 = 1 ∧
    (((stored.setReg .R1 0x0000).reg .R1).toNat + (-1 : BitVec 5).toInt) % 2 = 1 ∧
    (((stored.setReg .R1 0xFFFF).reg .R1).toNat + (0 : BitVec 5).toInt) % 2 = 1 := by decide

/-- A store at 0x2000, then a load of it and a load of the datum after it; ST and STU. -/
theorem witness_LoadReturnsTheLastStore : stored.Inv ∧
    (∃ t, exec (.st .R2 .R1 0) stored = .next t ∧ t.effAddr .R1 0 = stored.effAddr .R1 0 ∧
      t.effAddr .R1 2 ≠ stored.effAddr .R1 0 ∧ (t.effAddr .R1 2).getLsbD 0 = false) ∧
    (∃ t, exec (.stu .R2 .R1 2) stored = .next t ∧ t.effAddr .R1 0 = stored.effAddr .R1 2 ∧
      t.effAddr .R1 (-2) ≠ stored.effAddr .R1 2 ∧ (t.effAddr .R1 (-2)).getLsbD 0 = false) :=
  ⟨witness_inv_with_marks, ⟨_, rfl, by decide, by decide, by decide⟩, ⟨_, rfl, by decide, by decide, by decide⟩⟩

theorem witness_SiicTakesTheException : stored.params.exc = true := rfl

theorem witness_SiicWithoutExceptionsFaults : (halting noExc).params.exc = false := rfl

theorem witness_RtiLoadsThePcFromEpc : stored.params.exc = true ∧
    (exec (.siic .R5) stored = .next { stored with epc := 0x0104, pc := 0x0002 } ∧ stored.pc.getLsbD 0 = false) ∧
    (halting noExc).params.exc = false := ⟨rfl, ⟨rfl, by decide⟩, rfl⟩

theorem witness_ReturnResumesAfterSiicAndNestingLosesIt : stored.params.exc = true := rfl

/-- The machine of `stored` with another IFETCH_COHERENCE, which keeps no marks. -/
def storedUnmarked (c : Config.FetchCoherence) : State :=
  { stored with written := [], params := { Config.Params.default with ifetch := c } }

theorem inv_storedUnmarked (c : Config.FetchCoherence) (h : c ≠ .fault) : (storedUnmarked c).Inv :=
  ⟨witness_inv_with_marks.mem_wf, witness_inv_with_marks.image_wf, ⟨List.Pairwise.nil, by simp [storedUnmarked]⟩,
    fun _ => rfl, fun e => absurd e h, fun _ => rfl⟩

theorem sameButCoherence_storedUnmarked (c : Config.FetchCoherence) : SameButCoherence stored (storedUnmarked c) :=
  ⟨rfl, rfl, rfl, rfl, fun _ => rfl, fun _ => rfl, rfl⟩

theorem witness_FaultFreeRunsAgreeUnderEveryCoherence :
    (stored.Inv ∧ stored.params.ifetch = .fault ∧ Runs stored { stored with pc := 0x0104 }) ∧
    ((storedUnmarked .unified).Inv ∧ (storedUnmarked .unified).params.ifetch ≠ .fault ∧
      SameButCoherence stored (storedUnmarked .unified)) ∧
    ((storedUnmarked .split).Inv ∧ (storedUnmarked .split).params.ifetch ≠ .fault ∧
      SameButCoherence stored (storedUnmarked .split)) :=
  ⟨⟨witness_inv_with_marks, rfl, .snoc (.refl _) rfl⟩,
    ⟨inv_storedUnmarked _ (by decide), by decide, sameButCoherence_storedUnmarked _⟩,
    ⟨inv_storedUnmarked _ (by decide), by decide, sameButCoherence_storedUnmarked _⟩⟩

/-- The datum 0xC1 || 0x7F (LBI R1, 127) at 0x0100, in each byte order. -/
def lbiBig : State :=
  { State.launch Config.Params.default (regs12 0 0) 0x0300 [(0x0100, 0xC1), (0x0101, 0x7F)] with pc := 0x0100 }
def lbiLittle : State :=
  { State.launch little (regs12 0 0) 0x0300 [(0x0100, 0x7F), (0x0101, 0xC1)] with pc := 0x0100 }

theorem bytes_lbi (a : Word) : lbiLittle.byte a = lbiBig.byte (a ^^^ 1) := by
  have h : ∀ b : Word, a ^^^ 1 = b ↔ a = b ^^^ 1 := fun b =>
    ⟨fun e => by rw [← e, xor_one_xor_one], fun e => by rw [e, xor_one_xor_one]⟩
  have hb : ∀ c : Word, ∀ x y : Byte, Memory.read [(0x0100, x), (0x0101, y)] c.toNat =
      if c = 0x0100 then x else if c = 0x0101 then y else 0 := fun c x y => by
    simp only [Memory.read, Config.unlistedByte, ← BitVec.toNat_inj, eq_comm]
    rfl
  show Memory.read [(0x0100, 0x7F), (0x0101, 0xC1)] a.toNat = Memory.read [(0x0100, 0xC1), (0x0101, 0x7F)] (a ^^^ 1).toNat
  rw [hb, hb]
  simp only [h]
  by_cases h1 : a = 0x0100
  · subst h1; decide
  · by_cases h2 : a = 0x0101
    · subst h2; decide
    · rw [if_neg h1, if_neg h2, if_neg (show a ≠ 0x0100 ^^^ 1 from h2), if_neg (show a ≠ 0x0101 ^^^ 1 from h1)]

theorem witness_ByteOrderIsUnobservable : lbiBig.Inv ∧ lbiLittle.Inv ∧ ByteSwapped lbiBig lbiLittle :=
  ⟨inv_launched _ _ _ _ _ (by decide), inv_launched _ _ _ _ _ (by decide),
    ⟨rfl, rfl, rfl, rfl, bytes_lbi, bytes_lbi, fun _ => rfl, rfl⟩⟩

end Sys2Proof.Tests
end

/-! What an instruction does to the state, said once (`execForm` for every state, `exec_next` for one answer), and the
statements about the state (10_state.md) that follow from it. -/

namespace Sys2Proof.Machine

/-! ### How the updates of the state commute -/

/-- The later of two writes to one register stands; writes to two registers commute. -/
theorem State.setReg_setReg (s : State) (q r : Reg) (v w : Word) :
    (s.setReg q v).setReg r w = if q = r then s.setReg r w else (s.setReg r w).setReg q v := by
  split
  · next h => subst h; simp only [State.setReg, Regs.set_set_same]
  · next h => simp only [State.setReg, Regs.set_comm _ _ _ (Ne.symm h)]

theorem State.mark_setReg (s : State) (r : Reg) (v a : Word) : (s.setReg r v).mark a = (s.mark a).setReg r v := by
  simp only [State.mark, State.setReg_params]
  cases s.params.ifetch <;> rfl

theorem State.mark_setEpc (s : State) (v a : Word) : (s.setEpc v).mark a = (s.mark a).setEpc v := by
  simp only [State.mark, State.setEpc_params]
  cases s.params.ifetch <;> rfl

/-- A store does not look at the registers. -/
theorem State.writeWord_setReg (s : State) (r : Reg) (v ea w : Word) :
    (s.setReg r v).writeWord ea w = (s.writeWord ea w).setReg r v := by
  simp only [State.writeWord, ← State.mark_setReg]
  rfl

/-- A store does not look at EPC. -/
theorem State.writeWord_setEpc (s : State) (v ea w : Word) :
    (s.setEpc v).writeWord ea w = (s.writeWord ea w).setEpc v := by
  simp only [State.writeWord, ← State.mark_setEpc]
  rfl

/-! ### The PC after an instruction -/

theorem condZero_iff (a : Word) : condZero a = true ↔ a = 0 := by simp [condZero]

/-- The PC that an instruction leaves (10_state.md R25); `exec_pc` ties it to the model. -/
def pcAfter (i : Instr) (s : State) : Word :=
  match i with
  | .j d => s.relTarget d
  | .jal d => s.relTarget d
  | .jr rs imm => s.regTarget rs imm
  | .jalr rs imm => s.regTarget rs imm
  | .beqz rs imm => if s.reg rs = 0 then s.relTarget imm else s.nextPc
  | .bnez rs imm => if s.reg rs ≠ 0 then s.relTarget imm else s.nextPc
  | .ret => s.reg linkReg
  | .rti => if s.params.exc = true then s.epc else s.nextPc
  | .siic _ => handlerAddress
  | _ => s.nextPc

/-! ### The forms of an answer -/

/-- Neither HALT nor SIIC: the instructions that set `halted` and EPC are named apart. -/
def Plain (i : Instr) : Prop := i ≠ .halt ∧ ∀ rs, i ≠ .siic rs

/-- A value computed from the registers `rs` and the PC alone. -/
def ComputedFrom (rs : List Reg) (v : State → Word) : Prop :=
  ∀ s t : State, t.pc = s.pc → (∀ r ∈ rs, t.reg r = s.reg r) → v t = v s

/-- What an instruction can do, in every state: set the PC; write one register and set the PC; or one of the five that
touch something else. -/
inductive ExecForm : Instr → Prop where
  | goto {i : Instr} (plain : Plain i) (writes : writesRegs i = [])
      (answer : ∀ s, exec i s = .next (s.setPc (pcAfter i s))) : ExecForm i
  | result {i : Instr} (plain : Plain i) {rd : Reg} {v : State → Word} (writes : writesRegs i = [rd])
      (answer : ∀ s, exec i s = .next ((s.setReg rd (v s)).setPc (pcAfter i s)))
      (reads : ComputedFrom (readsRegs i) v) : ExecForm i
  | halt : ExecForm .halt
  | siic (rs : Reg) : ExecForm (.siic rs)
  | st (rd rs : Reg) (imm5 : BitVec 5) : ExecForm (.st rd rs imm5)
  | ld (rd rs : Reg) (imm5 : BitVec 5) : ExecForm (.ld rd rs imm5)
  | stu (rd rs : Reg) (imm5 : BitVec 5) : ExecForm (.stu rd rs imm5)

theorem exec_beqz (rs : Reg) (imm8 : BitVec 8) (s : State) :
    exec (.beqz rs imm8) s = .next (s.setPc (pcAfter (.beqz rs imm8) s)) := by
  simp only [exec, execBeqz, pcAfter, condZero_iff]
  split <;> rfl

theorem exec_bnez (rs : Reg) (imm8 : BitVec 8) (s : State) :
    exec (.bnez rs imm8) s = .next (s.setPc (pcAfter (.bnez rs imm8) s)) := by
  simp only [exec, execBnez, pcAfter, condZero_iff, ne_eq, ite_not]
  split <;> rfl

theorem exec_rti (s : State) : exec .rti s = .next (s.setPc (pcAfter .rti s)) := by
  simp only [exec, execRti, pcAfter]
  split <;> rfl

/-- Every instruction has one of the forms. -/
theorem execForm (i : Instr) : ExecForm i := by
  cases i
  case halt => exact .halt
  case siic rs => exact .siic rs
  case st rd rs imm5 => exact .st rd rs imm5
  case ld rd rs imm5 => exact .ld rd rs imm5
  case stu rd rs imm5 => exact .stu rd rs imm5
  case beqz rs imm8 => exact .goto (by simp [Plain]) rfl (exec_beqz rs imm8)
  case bnez rs imm8 => exact .goto (by simp [Plain]) rfl (exec_bnez rs imm8)
  case rti => exact .goto (by simp [Plain]) rfl exec_rti
  case nop | j | jr | ret => exact .goto (by simp [Plain]) rfl fun _ => rfl
  -- JAL, JALR and every instruction that ends with `State.finish`
  all_goals
    refine .result (by simp [Plain]) rfl (fun _ => rfl) ?_
    intro s t hpc hreg
    simp_all [readsRegs]

/-- What an instruction answers when it answers a next state; LD is one more that writes a register. -/
inductive ExecNext (s : State) : Instr → State → Prop where
  | goto {i : Instr} (plain : Plain i) (writes : writesRegs i = []) : ExecNext s i (s.setPc (pcAfter i s))
  | result {i : Instr} (plain : Plain i) {rd : Reg} {v : Word} (writes : writesRegs i = [rd]) :
      ExecNext s i ((s.setReg rd v).setPc (pcAfter i s))
  | halt : ExecNext s .halt s.setHalted.advance
  | siic {rs : Reg} (exc : s.params.exc = true) : ExecNext s (.siic rs) s.takeIllegalOp
  | st {rd rs : Reg} {imm5 : BitVec 5} (even : (s.effAddr rs imm5).getLsbD 0 = false) :
      ExecNext s (.st rd rs imm5) (s.writeWord (s.effAddr rs imm5) (s.reg rd)).advance
  | stu {rd rs : Reg} {imm5 : BitVec 5} (even : (s.effAddr rs imm5).getLsbD 0 = false) :
      ExecNext s (.stu rd rs imm5)
        ((s.writeWord (s.effAddr rs imm5) (s.reg rd)).setReg rs (s.effAddr rs imm5)).advance

theorem exec_siic (rs : Reg) (s : State) :
    exec (.siic rs) s = bif s.params.exc then .next s.takeIllegalOp else .fault .siicNotImplemented := by
  simp only [exec, execSiic, cond_eq_ite]

theorem exec_siic_next {s t : State} {rs : Reg} :
    exec (.siic rs) s = .next t ↔ s.params.exc = true ∧ s.takeIllegalOp = t := by
  rw [exec_siic]
  cases s.params.exc <;> simp

/-- The inversion of `exec`: every next state is one of these. -/
theorem exec_next {i : Instr} {s t : State} (h : exec i s = .next t) : ExecNext s i t := by
  cases execForm i with
  | goto plain writes answer => cases (answer s).symm.trans h; exact .goto plain writes
  | result plain writes answer _ => cases (answer s).symm.trans h; exact .result plain writes
  | halt => cases h; exact .halt
  | siic rs => obtain ⟨exc, rfl⟩ := exec_siic_next.mp h; exact .siic exc
  | st rd rs imm5 => obtain ⟨even, ⟨⟩⟩ := ifAligned_next.mp h; exact .st even
  | ld rd rs imm5 => obtain ⟨-, ⟨⟩⟩ := ifAligned_next.mp h; exact .result (by simp [Plain]) rfl
  | stu rd rs imm5 => obtain ⟨even, ⟨⟩⟩ := ifAligned_next.mp h; exact .stu even

/-! ### What an instruction leaves in each field -/

/-- The PC goes by its rule. -/
theorem exec_pc {i : Instr} {s t : State} (h : exec i s = .next t) : t.pc = pcAfter i s := by
  cases exec_next h with
  | goto | result | siic => rfl
  | halt | st | stu => simp [pcAfter]

/-- Only HALT sets `halted`, and nothing clears it. -/
theorem exec_halted {i : Instr} {s t : State} (h : exec i s = .next t) :
    t.halted = true ↔ s.halted = true ∨ i = .halt := by
  cases exec_next h with
  | goto plain | result plain => simp [plain.1]
  | halt | siic | st | stu => simp [State.takeIllegalOp]

/-- EPC after an instruction: SIIC sets it, and no other instruction touches it. -/
theorem exec_epc {i : Instr} {s t : State} (h : exec i s = .next t) :
    (∃ rs, i = .siic rs ∧ s.params.exc = true ∧ t.epc = s.pc + 2) ∨ (∀ rs, i ≠ .siic rs) ∧ t.epc = s.epc := by
  cases exec_next h with
  | goto plain | result plain => exact .inr ⟨plain.2, rfl⟩
  | siic exc => exact .inl ⟨_, rfl, exc, rfl⟩
  | halt | st | stu => exact .inr (by simp)

/-- A register that the instruction does not list holds what it held. -/
theorem exec_regs {i : Instr} {s t : State} (h : exec i s = .next t) : RegsUnchangedBut (writesRegs i) s t := by
  intro r hr
  cases exec_next h with
  | goto | halt | siic => rfl
  | result _ writes => simp_all
  | st => simp
  | stu => simp_all [writesRegs]

/-! ### What an instruction leaves in memory -/

/-- `t` holds the memory, the marks and the launch arguments of `s`. -/
structure SameStorage (s t : State) : Prop where
  mem     : t.mem = s.mem
  written : t.written = s.written
  image   : t.image = s.image
  params  : t.params = s.params

/-- An instruction leaves memory, marks and launch arguments alone, or makes one aligned 16-bit store. -/
theorem exec_storage {i : Instr} {s t : State} (h : exec i s = .next t) :
    SameStorage s t ∨ ∃ ea v, ea.getLsbD 0 = false ∧ SameStorage (s.writeWord ea v) t := by
  cases exec_next h with
  | goto | result | halt | siic => exact .inl ⟨rfl, rfl, rfl, rfl⟩
  | st even | stu even => exact .inr ⟨_, _, even, rfl, rfl, rfl, rfl⟩

theorem SameStorage.isWritten {s t : State} (h : SameStorage s t) (a : Word) : t.isWritten a = s.isWritten a := by
  simp only [State.isWritten, h.written]

/-- The invariant is about memory, marks and launch arguments alone. -/
theorem SameStorage.inv {s t : State} (h : SameStorage s t) (hs : s.Inv) : t.Inv := by
  obtain ⟨mem, written, image, params⟩ := h
  obtain ⟨mem_wf, image_wf, written_wf, pairs, loaded, kept⟩ := hs
  constructor <;> simpa only [State.isWritten, State.byte, State.imageByte, mem, written, image, params]

/-- An aligned store marks its two bytes as a pair. -/
theorem State.writeWord_marks_in_pairs {s : State} {ea : Word} (even : ea.getLsbD 0 = false) (v : Word)
    (h : ∀ a, s.isWritten (a ^^^ 1) = s.isWritten a) (a : Word) :
    (s.writeWord ea v).isWritten (a ^^^ 1) = (s.writeWord ea v).isWritten a := by
  have low : a ^^^ 1 = ea ↔ a = ea ^^^ 1 :=
    ⟨fun e => by rw [← e, xor_one_xor_one], fun e => by rw [e, xor_one_xor_one]⟩
  have high : a ^^^ 1 = ea ^^^ 1 ↔ a = ea :=
    ⟨fun e => by rw [← xor_one_xor_one a, e, xor_one_xor_one], fun e => by rw [e]⟩
  simp only [State.isWritten_writeWord, h, add_one_eq_xor_of_even ea even, low, high, Bool.or_comm]

/-- A byte that is unmarked after a store is none of the two stored, so it reads as it did. -/
theorem State.byte_writeWord_of_unmarked {s : State} (hm : Memory.wf s.mem) (hf : s.params.ifetch = .fault)
    {ea v a : Word} (h : (s.writeWord ea v).isWritten a = false) :
    s.isWritten a = false ∧ (s.writeWord ea v).byte a = s.byte a := by
  simp only [State.isWritten_writeWord, hf, decide_true, Bool.true_and, Bool.or_eq_false_iff,
    decide_eq_false_iff_not] at h
  obtain ⟨unmarked, low, high⟩ := h
  exact ⟨unmarked, by rw [State.byte_writeWord s hm, if_neg high, if_neg low]⟩

/-- An aligned store keeps the invariant. -/
theorem State.Inv.writeWord {s : State} (hs : s.Inv) {ea : Word} (even : ea.getLsbD 0 = false) (v : Word) :
    (s.writeWord ea v).Inv where
  mem_wf := State.wf_writeWord s hs.mem_wf ea v
  image_wf := by simpa only [State.writeWord_image] using hs.image_wf
  written_wf := State.marks_wf_writeWord s hs.written_wf ea v
  written_in_pairs := State.writeWord_marks_in_pairs even v hs.written_in_pairs
  unwritten_as_loaded := by
    intro hf a ha
    rw [State.writeWord_params] at hf
    obtain ⟨unmarked, same⟩ := State.byte_writeWord_of_unmarked hs.mem_wf hf ha
    rw [same, State.writeWord_imageByte, hs.unwritten_as_loaded hf a unmarked]
  written_only_when_kept := by
    intro hf
    rw [State.writeWord_params] at hf
    simpa [State.writeWord, State.mark_written, hf] using hs.written_only_when_kept hf

theorem exec_keeps_inv {i : Instr} {s t : State} (hs : s.Inv) (h : exec i s = .next t) : t.Inv := by
  obtain same | ⟨ea, v, even, same⟩ := exec_storage h
  · exact same.inv hs
  · exact same.inv (hs.writeWord even v)

theorem exec_keeps_launch_and_marks {i : Instr} {s t : State} (h : exec i s = .next t) :
    t.params = s.params ∧ t.image = s.image ∧ ∀ a, s.isWritten a = true → t.isWritten a = true := by
  obtain same | ⟨ea, v, -, same⟩ := exec_storage h
  · exact ⟨same.params, same.image, fun a ha => by rw [same.isWritten, ha]⟩
  · refine ⟨by simp [same.params], by simp [same.image], fun a ha => ?_⟩
    rw [same.isWritten, State.isWritten_writeWord, ha, Bool.true_or]

/-! ### What an instruction does not read -/

/-- A change made to the next state of an answer, and to no other answer. -/
def mapNext (f : State → State) : Result → Result
  | .next t => .next (f t)
  | .fault r => .fault r
  | .refused r => .refused r

theorem mapNext_next (f : State → State) (t : State) : mapNext f (.next t) = .next (f t) := rfl

theorem mapNext_ifAligned (f : State → State) (ea : Word) (k : Result) :
    mapNext f (ifAligned ea k) = ifAligned ea (mapNext f k) := by
  unfold ifAligned
  split <;> rfl

theorem State.effAddr_setReg_of_ne (s : State) {q r : Reg} (v : Word) (imm5 : BitVec 5) (h : q ≠ r) :
    (s.setReg r v).effAddr q imm5 = s.effAddr q imm5 := by simp [State.effAddr, h]

theorem State.readWord_setReg (s : State) (r : Reg) (v ea : Word) : (s.setReg r v).readWord ea = s.readWord ea := rfl

/-- The PC is computed from no register but those the instruction lists. -/
theorem pcAfter_setReg {i : Instr} {r : Reg} (h : r ∉ readsRegs i) (s : State) (v : Word) :
    pcAfter i (s.setReg r v) = pcAfter i s := by
  cases i
  case jr | jalr | beqz | bnez | ret =>
    simp only [readsRegs, List.mem_singleton] at h
    simp [pcAfter, State.regTarget, State.relTarget, linkReg, Ne.symm h]
  all_goals rfl

/-- The PC is computed from EPC by RTI with the exceptions alone. -/
theorem pcAfter_setEpc {i : Instr} {s : State} (h : i ≠ .rti ∨ s.params.exc = false) (v : Word) :
    pcAfter i (s.setEpc v) = pcAfter i s := by
  cases i
  case rti => simp_all [pcAfter]
  all_goals rfl

theorem ComputedFrom.setReg {rs : List Reg} {f : State → Word} (h : ComputedFrom rs f) {r : Reg} (hr : r ∉ rs)
    (s : State) (v : Word) : f (s.setReg r v) = f s :=
  h s _ rfl fun _ hq => State.reg_setReg_of_ne s v fun e => hr (e ▸ hq)

theorem ComputedFrom.setEpc {rs : List Reg} {f : State → Word} (h : ComputedFrom rs f) (s : State) (v : Word) :
    f (s.setEpc v) = f s := h s _ rfl fun _ _ => rfl

/-- A register that the instruction does not read passes through it, or is overwritten. -/
theorem exec_setReg {i : Instr} {r : Reg} (h : r ∉ readsRegs i) (s : State) (v : Word) :
    exec i (s.setReg r v) = mapNext (fun t => if r ∈ writesRegs i then t else t.setReg r v) (exec i s) := by
  cases execForm i with
  | goto _ writes answer =>
    simp only [answer, pcAfter_setReg h, writes, mapNext_next]
    rfl
  | @result _ _ rd w writes answer reads =>
    simp only [answer, pcAfter_setReg h, reads.setReg h, writes, mapNext_next, List.mem_singleton]
    rw [State.setReg_setReg]
    split <;> rfl
  | halt => rfl
  | siic rs =>
    simp only [exec_siic, State.setReg_params]
    cases s.params.exc <;> rfl
  | st rd rs imm5 =>
    simp only [readsRegs, List.mem_cons, List.not_mem_nil, or_false, not_or] at h
    obtain ⟨hrs, hrd⟩ := h
    simp only [exec, execSt, State.effAddr_setReg_of_ne s v imm5 (Ne.symm hrs),
      State.reg_setReg_of_ne s v (Ne.symm hrd), State.writeWord_setReg, mapNext_ifAligned]
    rfl
  | ld rd rs imm5 =>
    simp only [readsRegs, List.mem_singleton] at h
    simp only [exec, execLd, State.effAddr_setReg_of_ne s v imm5 (Ne.symm h), State.readWord_setReg, mapNext_ifAligned,
      State.finish, writesRegs, List.mem_singleton, mapNext_next]
    rw [State.setReg_setReg]
    split <;> rfl
  | stu rd rs imm5 =>
    simp only [readsRegs, List.mem_cons, List.not_mem_nil, or_false, not_or] at h
    obtain ⟨hrs, hrd⟩ := h
    simp only [exec, execStu, State.effAddr_setReg_of_ne s v imm5 (Ne.symm hrs),
      State.reg_setReg_of_ne s v (Ne.symm hrd), State.writeWord_setReg, mapNext_ifAligned, State.finish,
      writesRegs, List.mem_singleton, if_neg hrs, mapNext_next]
    rw [State.setReg_setReg, if_neg hrs]
    rfl

/-- An EPC changed before an instruction shows after it, but for SIIC, which overwrites it. -/
def carryEpc (i : Instr) (v : Word) (t : State) : State :=
  match i with
  | .siic _ => t
  | _ => t.setEpc v

theorem carryEpc_of_plain {i : Instr} (plain : Plain i) (v : Word) (t : State) : carryEpc i v t = t.setEpc v := by
  unfold carryEpc
  split
  · next rs => exact absurd rfl (plain.2 rs)
  · rfl

/-- No instruction reads EPC but RTI with the exceptions. -/
theorem exec_setEpc {i : Instr} {s : State} (h : i ≠ .rti ∨ s.params.exc = false) (v : Word) :
    exec i (s.setEpc v) = mapNext (carryEpc i v) (exec i s) := by
  cases execForm i with
  | goto plain _ answer =>
    simp only [answer, pcAfter_setEpc h, mapNext_next, carryEpc_of_plain plain]
    rfl
  | result plain _ answer reads =>
    simp only [answer, pcAfter_setEpc h, reads.setEpc, mapNext_next, carryEpc_of_plain plain]
    rfl
  | halt => rfl
  | siic rs =>
    simp only [exec_siic, State.setEpc_params]
    cases s.params.exc <;> rfl
  | st rd rs imm5 =>
    simp only [exec, execSt, State.writeWord_setEpc, mapNext_ifAligned]
    rfl
  | ld rd rs imm5 =>
    simp only [exec, execLd, mapNext_ifAligned]
    rfl
  | stu rd rs imm5 =>
    simp only [exec, execStu, State.writeWord_setEpc, mapNext_ifAligned]
    rfl

/-! ### The instruction that a step fetches -/

/-- The step has fetched a HALT exactly when the word at the PC decodes to one; an unassigned opcode is none. -/
theorem fetchInstr_eq_halt_iff {s : State} {i : Instr} (h : s.fetchInstr = .ok i) :
    i = .halt ↔ decodeWord s.codeWord = .ok .halt := by
  obtain ⟨w, hw, hi⟩ := State.fetchInstr_ok.mp h
  obtain ⟨-, -, rfl⟩ := State.fetchWord_ok.mp hw
  unfold instrOfWord at hi
  split at hi
  · next j hj => cases hi; simp [hj]
  · next e he =>
    split at hi
    · cases hi
    · cases hi; simp [he]

theorem not_step_next_of_final {s : State} (h : s.Final) (t : State) : step s ≠ .next t := by
  intro hstep
  obtain ⟨running, -⟩ := step_next.mp hstep
  exact Bool.false_ne_true (running.symm.trans h)

/-! ### The statements -/

/-- Settles O12: an instruction touches memory by an aligned store at most, and such a store keeps the invariant. -/
theorem stepKeepsTheInvariant : Obligations.StepKeepsTheInvariant := by
  intro s t hs h
  obtain ⟨-, i, -, hexec⟩ := step_next.mp h
  exact exec_keeps_inv hs hexec

/-- Settles O13: a store only adds marks, and nothing else touches marks, parameters or image. -/
theorem launchArgumentsStayAndMarksAreNeverCleared : Obligations.LaunchArgumentsStayAndMarksAreNeverCleared := by
  intro s t h
  obtain ⟨-, i, -, hexec⟩ := step_next.mp h
  exact exec_keeps_launch_and_marks hexec

/-- Settles O14, from what `exec` leaves in EPC and how a changed EPC passes through it. -/
theorem epcWrittenOnlyBySiicReadOnlyByRti : Obligations.EpcWrittenOnlyBySiicReadOnlyByRti := by
  intro i s
  refine ⟨fun t h => ?_, fun v h => ?_, fun exc => ⟨_, exec_rti s, by simp [pcAfter, exc]⟩, fun t exc h => ?_⟩
  · obtain ⟨rs, rfl, -, set⟩ | ⟨other, kept⟩ := exec_epc h
    · exact set
    · split
      · next rs => exact absurd rfl (other rs)
      · exact kept
  · exact exec_setEpc h v
  · obtain ⟨rs, -, exc', -⟩ | ⟨-, kept⟩ := exec_epc h
    · rw [exc] at exc'; cases exc'
    · exact kept

/-- Settles O15: the registers written by the inversion of `exec`, those read by the forms of an answer. -/
theorem instructionTouchesOnlyItsListedRegisters : Obligations.InstructionTouchesOnlyItsListedRegisters :=
  fun _ s => ⟨fun _ h => exec_regs h, fun _ v h => exec_setReg h s v⟩

/-- Settles O16: `pcAfter` is the rule of the statement. -/
theorem everyInstructionSetsThePcByItsRule : Obligations.EveryInstructionSetsThePcByItsRule :=
  fun _ _ _ h => exec_pc h

/-- Settles O18, by what `exec` leaves in `halted` and which word it was that the step fetched. -/
theorem onlyHaltSetsHaltedAndNothingFollows : Obligations.OnlyHaltSetsHaltedAndNothingFollows := by
  refine ⟨fun i s t h => exec_halted h, fun s t h => ?_, fun s t u _ final => not_step_next_of_final final u⟩
  obtain ⟨running, i, hfetch, hexec⟩ := step_next.mp h
  refine ⟨running, ?_⟩
  rw [exec_halted hexec, ← fetchInstr_eq_halt_iff hfetch, running]
  simp

/-- Settles O10: a launch holds what it is given, and reset is the launch with the values of the log. -/
theorem launchIsTheSpecsReset : Obligations.LaunchIsTheSpecsReset := by
  refine ⟨fun p g e m => ⟨rfl, rfl, fun _ => rfl, fun _ => rfl, fun _ => rfl, rfl, rfl, rfl⟩, rfl, rfl, rfl, ?_, rfl,
    fun _ => rfl, fun _ => rfl, fun _ => rfl, rfl⟩
  intro r
  cases r <;> rfl

end Sys2Proof.Machine

/-! Memory (20_memory.md): what a store leaves and what a load gives after it. Then two relations between machines, that
of IFETCH_COHERENCE and that of the byte order; every instruction keeps both for one reason, said once
(`DataRelation.exec_agree`): the machines load the same data, and a store keeps the relation. -/

namespace Sys2Proof.Machine

/-! ### What a store leaves, and what a load gives after it -/

theorem SameStorage.readWord {s t : State} (h : SameStorage s t) (ea : Word) : t.readWord ea = s.readWord ea := by
  simp only [State.readWord, State.byte, h.mem, h.params]

theorem SameStorage.memoryUnchanged {s t : State} (h : SameStorage s t) : MemoryUnchanged s t :=
  ⟨fun a => by simp only [State.byte, h.mem], h.isWritten⟩

/-- The frame of a 16-bit store. -/
theorem State.writeWord_frame (s : State) (hm : Memory.wf s.mem) (ea v : Word) :
    MemoryUnchangedBut ea s (s.writeWord ea v) := by
  intro a low high
  rw [State.byte_writeWord s hm, if_neg high, if_neg low, State.isWritten_writeWord, decide_eq_false low,
    decide_eq_false high, Bool.or_self, Bool.and_false, Bool.or_false]
  exact ⟨rfl, rfl⟩

theorem MemoryUnchangedBut.trans_unchanged {s t u : State} {ea : Word} (h : MemoryUnchangedBut ea s t)
    (same : MemoryUnchanged t u) : MemoryUnchangedBut ea s u := by
  intro a low high
  obtain ⟨byte, mark⟩ := h a low high
  exact ⟨(same.1 a).trans byte, (same.2 a).trans mark⟩

/-- No even address is the one above another. -/
theorem add_one_ne_of_even {a b : Word} (ha : a.getLsbD 0 = false) (hb : b.getLsbD 0 = false) : a + 1 ≠ b := by
  intro e
  rw [add_one_eq_xor_of_even a ha] at e
  rw [← e, BitVec.getLsbD_xor, ha] at hb
  exact absurd hb (by decide)

/-- A 16-bit store leaves the datum at every other even address (20_memory.md R50). -/
theorem State.readWord_writeWord_of_ne (s : State) (hm : Memory.wf s.mem) {ea a : Word} (v : Word)
    (even : ea.getLsbD 0 = false) (ha : a.getLsbD 0 = false) (h : a ≠ ea) :
    (s.writeWord ea v).readWord a = s.readWord a := by
  have frame := s.writeWord_frame hm ea v
  have low := (frame a h (add_one_ne_of_even even ha).symm).1
  have high := (frame (a + 1) (add_one_ne_of_even ha even) fun e => h (add_right_cancel e)).1
  simp only [State.readWord, State.writeWord_params, low, high]

/-- ST and STU store `x[rd]` at an even effective address, and touch no other storage. -/
theorem exec_store {i : Instr} {s t : State} {rd rs : Reg} {imm5 : BitVec 5}
    (hi : i = .st rd rs imm5 ∨ i = .stu rd rs imm5) (h : exec i s = .next t) :
    (s.effAddr rs imm5).getLsbD 0 = false ∧ SameStorage (s.writeWord (s.effAddr rs imm5) (s.reg rd)) t := by
  obtain rfl | rfl := hi <;>
  · obtain ⟨even, ⟨⟩⟩ := ifAligned_next.mp h
    exact ⟨even, rfl, rfl, rfl, rfl⟩

/-- LD at an even effective address completes with the datum there. -/
theorem exec_ld_of_even {s : State} {rs : Reg} {imm5 : BitVec 5} (rd : Reg)
    (even : (s.effAddr rs imm5).getLsbD 0 = false) :
    ∃ u, exec (.ld rd rs imm5) s = .next u ∧ u.reg rd = s.readWord (s.effAddr rs imm5) :=
  ⟨_, ifAligned_of_even _ even, by simp⟩

/-! ### Relations that every instruction keeps -/

/-- The two machines agree outside memory, marks and launch arguments. -/
structure SameRegisters (s t : State) : Prop where
  regs   : t.regs = s.regs
  pc     : t.pc = s.pc
  epc    : t.epc = s.epc
  halted : t.halted = s.halted

theorem SameRegisters.reg {s t : State} (h : SameRegisters s t) (r : Reg) : t.reg r = s.reg r := by
  simp only [State.reg, h.regs]

theorem SameRegisters.effAddr {s t : State} (h : SameRegisters s t) (rs : Reg) (imm5 : BitVec 5) :
    t.effAddr rs imm5 = s.effAddr rs imm5 := by simp only [State.effAddr, h.reg]

theorem SameRegisters.setPc {s t : State} (h : SameRegisters s t) (p : Word) :
    SameRegisters (s.setPc p) (t.setPc p) := ⟨h.regs, rfl, h.epc, h.halted⟩

theorem SameRegisters.advance {s t : State} (h : SameRegisters s t) : SameRegisters s.advance t.advance := by
  simpa only [State.advance_eq, h.pc] using h.setPc (s.pc + 2)

theorem SameRegisters.setReg {s t : State} (h : SameRegisters s t) (r : Reg) (v : Word) :
    SameRegisters (s.setReg r v) (t.setReg r v) :=
  ⟨by simp only [State.setReg_regs, h.regs], h.pc, h.epc, h.halted⟩

theorem SameRegisters.setHalted {s t : State} (h : SameRegisters s t) : SameRegisters s.setHalted t.setHalted :=
  ⟨h.regs, h.pc, h.epc, rfl⟩

theorem SameRegisters.takeIllegalOp {s t : State} (h : SameRegisters s t) :
    SameRegisters s.takeIllegalOp t.takeIllegalOp :=
  ⟨h.regs, rfl, congrArg (· + 2) h.pc, h.halted⟩

theorem SameRegisters.pcAfter {s t : State} (h : SameRegisters s t) (exc : t.params.exc = s.params.exc) (i : Instr) :
    pcAfter i t = pcAfter i s := by
  cases i <;>
    simp only [Machine.pcAfter, State.relTarget, State.regTarget, State.nextPc_eq, h.reg, h.pc, h.epc, exc]

/-- A relation between machines that no instruction can tell apart: they agree on what an instruction reads, and a store
keeps the relation. -/
structure DataRelation (R : State → State → Prop) : Prop where
  registers : ∀ {s t}, R s t → SameRegisters s t
  exc       : ∀ {s t}, R s t → t.params.exc = s.params.exc
  load      : ∀ {s t ea}, R s t → ea.getLsbD 0 = false → t.readWord ea = s.readWord ea
  store     : ∀ {s t ea}, R s t → ea.getLsbD 0 = false → ∀ v, R (s.writeWord ea v) (t.writeWord ea v)
  update    : ∀ {s t s' t'}, R s t → SameStorage s s' → SameStorage t t' → SameRegisters s' t' → R s' t'

theorem agree_ifAligned {R : State → State → Prop} {ea : Word} {j k : Result}
    (h : ea.getLsbD 0 = false → Agree R j k) : Agree R (ifAligned ea j) (ifAligned ea k) := by
  cases parity : ea.getLsbD 0 with
  | true => simp only [ifAligned_of_odd _ parity, Agree]
  | false => simpa only [ifAligned_of_even _ parity] using h parity

/-- An instruction answers in the same way on related machines. -/
theorem DataRelation.exec_agree {R : State → State → Prop} (hR : DataRelation R) {s t : State} (h : R s t)
    (i : Instr) : Agree R (exec i s) (exec i t) := by
  have same := hR.registers h
  have hpc := same.pcAfter (hR.exc h) i
  cases execForm i with
  | goto _ _ answer =>
    rw [answer, answer, hpc]
    exact hR.update h ⟨rfl, rfl, rfl, rfl⟩ ⟨rfl, rfl, rfl, rfl⟩ (same.setPc _)
  | result _ _ answer reads =>
    rw [answer, answer, hpc, reads s t same.pc fun r _ => same.reg r]
    exact hR.update h ⟨rfl, rfl, rfl, rfl⟩ ⟨rfl, rfl, rfl, rfl⟩ ((same.setReg _ _).setPc _)
  | halt => exact hR.update h ⟨rfl, rfl, rfl, rfl⟩ ⟨rfl, rfl, rfl, rfl⟩ same.setHalted.advance
  | siic rs =>
    rw [exec_siic, exec_siic, hR.exc h]
    cases s.params.exc with
    | false => rfl
    | true => exact hR.update h ⟨rfl, rfl, rfl, rfl⟩ ⟨rfl, rfl, rfl, rfl⟩ same.takeIllegalOp
  | st rd rs imm5 =>
    simp only [exec, execSt, same.effAddr, same.reg]
    refine agree_ifAligned fun even => ?_
    have stored := hR.store h even (s.reg rd)
    exact hR.update stored ⟨rfl, rfl, rfl, rfl⟩ ⟨rfl, rfl, rfl, rfl⟩ (hR.registers stored).advance
  | ld rd rs imm5 =>
    simp only [exec, execLd, same.effAddr]
    refine agree_ifAligned fun even => ?_
    rw [hR.load h even]
    exact hR.update h ⟨rfl, rfl, rfl, rfl⟩ ⟨rfl, rfl, rfl, rfl⟩ (same.setReg _ _).advance
  | stu rd rs imm5 =>
    simp only [exec, execStu, same.effAddr, same.reg]
    refine agree_ifAligned fun even => ?_
    have stored := hR.store h even (s.reg rd)
    exact hR.update stored ⟨rfl, rfl, rfl, rfl⟩ ⟨rfl, rfl, rfl, rfl⟩ ((hR.registers stored).setReg _ _).advance

theorem Agree.imp {R Q : State → State → Prop} (hRQ : ∀ {s t}, R s t → Q s t) {a b : Result} (h : Agree R a b) :
    Agree Q a b := by
  cases a <;> cases b
  case next.next => exact hRQ h
  all_goals exact h

theorem Agree.next_left {R : State → State → Prop} {u : State} {b : Result} (h : Agree R (.next u) b) :
    ∃ u', b = .next u' ∧ R u u' := by
  cases b with
  | next u' => exact ⟨u', rfl, h⟩
  | fault | refused => exact h.elim

/-- A word decodes by no parameter but UNASSIGNED_OPCODE. -/
theorem instrOfWord_congr {p q : Config.Params} (h : q.unassigned = p.unassigned) (w : Word) :
    instrOfWord q w = instrOfWord p w := by
  simp only [instrOfWord, h]

/-- Related machines that fetch the same instruction, or the same fault, step in the same way. -/
theorem DataRelation.step_agree {R : State → State → Prop} (hR : DataRelation R) {s t : State} (h : R s t)
    (fetch : t.fetchInstr = s.fetchInstr) : Agree R (step s) (step t) := by
  unfold step
  rw [(hR.registers h).halted, fetch]
  cases s.halted with
  | true => rfl
  | false =>
    cases s.fetchInstr with
    | ok i => exact hR.exec_agree h i
    | error f => rfl

/-! ### Machines of opposite byte order (20_memory.md R56) -/

theorem wordOfBytes_otherEndian (e : Config.Endian) (a b : Byte) :
    wordOfBytes (otherEndian e) b a = wordOfBytes e a b := by cases e <;> rfl

theorem lowerByte_otherEndian (e : Config.Endian) (w : Word) : lowerByte (otherEndian e) w = higherByte e w := by
  cases e <;> rfl

theorem higherByte_otherEndian (e : Config.Endian) (w : Word) : higherByte (otherEndian e) w = lowerByte e w := by
  cases e <;> rfl

theorem xor_one_eq_iff {a b : Word} : a ^^^ 1 = b ↔ a = b ^^^ 1 :=
  ⟨fun e => by rw [← e, xor_one_xor_one], fun e => by rw [e, xor_one_xor_one]⟩

/-- Two bytes that are exchanged are one datum when the byte order is the other one. -/
theorem wordOfBytes_swapped {f g : Word → Byte} (swap : ∀ a, g a = f (a ^^^ 1)) (e : Config.Endian) {a : Word}
    (even : a.getLsbD 0 = false) :
    wordOfBytes (otherEndian e) (g a) (g (a + 1)) = wordOfBytes e (f a) (f (a + 1)) := by
  rw [swap, swap, add_one_eq_xor_of_even a even, xor_one_xor_one, wordOfBytes_otherEndian]

theorem ByteSwapped.endian {s t : State} (h : ByteSwapped s t) : t.params.endian = otherEndian s.params.endian := by
  rw [h.params]

theorem ByteSwapped.ifetch {s t : State} (h : ByteSwapped s t) : t.params.ifetch = s.params.ifetch := by
  rw [h.params]

theorem ByteSwapped.readWord {s t : State} (h : ByteSwapped s t) {ea : Word} (even : ea.getLsbD 0 = false) :
    t.readWord ea = s.readWord ea := by
  simp only [State.readWord, h.endian, wordOfBytes_swapped h.memory _ even]

theorem ByteSwapped.codeByte {s t : State} (h : ByteSwapped s t) (a : Word) :
    t.codeByte a = s.codeByte (a ^^^ 1) := by
  simp only [State.codeByte, h.ifetch, h.memory, h.image]

theorem ByteSwapped.codeWord {s t : State} (h : ByteSwapped s t) (even : s.pc.getLsbD 0 = false) :
    t.codeWord = s.codeWord := by
  simp only [State.codeWord, h.endian, h.pc, wordOfBytes_swapped h.codeByte _ even]

theorem ByteSwapped.fetchWord {s t : State} (h : ByteSwapped s t) : t.fetchWord = s.fetchWord := by
  unfold State.fetchWord
  rw [h.pc, h.ifetch, h.written, h.written]
  cases parity : s.pc.getLsbD 0 with
  | true => rfl
  | false => rw [h.codeWord parity]

theorem ByteSwapped.fetchInstr {s t : State} (h : ByteSwapped s t) : t.fetchInstr = s.fetchInstr := by
  have unassigned : t.params.unassigned = s.params.unassigned := by rw [h.params]
  simp only [State.fetchInstr, h.fetchWord, instrOfWord_congr unassigned]

/-- The same store in both byte orders puts the two bytes of the datum at exchanged addresses. -/
theorem ByteSwapped.writeWord {s t : State} (h : ByteSwapped s t) (hs : Memory.wf s.mem) (ht : Memory.wf t.mem)
    {ea : Word} (even : ea.getLsbD 0 = false) (v : Word) : ByteSwapped (s.writeWord ea v) (t.writeWord ea v) where
  regs := by simpa using h.regs
  pc := by simpa using h.pc
  epc := by simpa using h.epc
  halted := by simpa using h.halted
  image := by simpa using h.image
  params := by simpa using h.params
  written a := by simp only [State.isWritten_writeWord, h.written, h.ifetch]
  memory a := by
    have distinct : ea ^^^ 1 ≠ ea := add_one_eq_xor_of_even ea even ▸ add_one_ne ea
    rw [State.byte_writeWord t ht, State.byte_writeWord s hs, h.endian, higherByte_otherEndian,
      lowerByte_otherEndian, h.memory, add_one_eq_xor_of_even ea even]
    simp only [xor_one_eq_iff, xor_one_xor_one]
    by_cases low : a = ea
    · rw [low, if_neg distinct.symm, if_pos rfl, if_pos rfl]
    · rw [if_neg low, if_neg low]

/-- The relation of R56, with the invariant that a store needs. -/
def Swapped (s t : State) : Prop := s.Inv ∧ t.Inv ∧ ByteSwapped s t

theorem dataRelation_swapped : DataRelation Swapped where
  registers := fun ⟨_, _, h⟩ => ⟨h.regs, h.pc, h.epc, h.halted⟩
  exc := fun ⟨_, _, h⟩ => by rw [h.params]
  load := fun ⟨_, _, h⟩ even => h.readWord even
  store := fun ⟨hs, ht, h⟩ even v =>
    ⟨hs.writeWord even v, ht.writeWord even v, h.writeWord hs.mem_wf ht.mem_wf even v⟩
  update := by
    rintro s t s' t' ⟨hs, ht, h⟩ ss tt ⟨regs, pc, epc, halted⟩
    refine ⟨ss.inv hs, tt.inv ht, regs, pc, epc, halted, fun a => ?_, fun a => ?_, fun a => ?_, ?_⟩
    · rw [tt.memoryUnchanged.1, ss.memoryUnchanged.1, h.memory]
    · simpa only [State.imageByte, ss.image, tt.image] using h.image a
    · rw [tt.isWritten, ss.isWritten, h.written]
    · rw [tt.params, ss.params, h.params]

/-! ### Machines that differ in IFETCH_COHERENCE (20_memory.md R53) -/

theorem SameButCoherence.endian {s t : State} (h : SameButCoherence s t) : t.params.endian = s.params.endian := by
  rw [h.params]

theorem SameButCoherence.readWord {s t : State} (h : SameButCoherence s t) (ea : Word) :
    t.readWord ea = s.readWord ea := by
  simp only [State.readWord, h.endian, h.memory]

theorem SameButCoherence.writeWord {s t : State} (h : SameButCoherence s t) (hs : Memory.wf s.mem)
    (ht : Memory.wf t.mem) (ea v : Word) : SameButCoherence (s.writeWord ea v) (t.writeWord ea v) where
  regs := by simpa using h.regs
  pc := by simpa using h.pc
  epc := by simpa using h.epc
  halted := by simpa using h.halted
  image := by simpa using h.image
  params := by simpa using h.params
  memory a := by rw [State.byte_writeWord t ht, State.byte_writeWord s hs, h.endian, h.memory]

/-- The relation of R53, with the invariant: the first machine keeps marks and faults, the second is unified or
split. -/
structure Unmarked (s t : State) : Prop where
  left    : s.Inv
  right   : t.Inv
  marking : s.params.ifetch = .fault
  free    : t.params.ifetch ≠ .fault
  same    : SameButCoherence s t

theorem dataRelation_unmarked : DataRelation Unmarked where
  registers h := ⟨h.same.regs, h.same.pc, h.same.epc, h.same.halted⟩
  exc h := by rw [h.same.params]
  load h _ := h.same.readWord _
  store h even v :=
    ⟨h.left.writeWord even v, h.right.writeWord even v, by simpa using h.marking, by simpa using h.free,
      h.same.writeWord h.left.mem_wf h.right.mem_wf _ v⟩
  update := by
    rintro s t s' t' h ss tt ⟨regs, pc, epc, halted⟩
    refine ⟨ss.inv h.left, tt.inv h.right, by rw [ss.params, h.marking], by rw [tt.params]; exact h.free, regs, pc,
      epc, halted, fun a => ?_, fun a => ?_, ?_⟩
    · rw [tt.memoryUnchanged.1, ss.memoryUnchanged.1, h.same.memory]
    · simpa only [State.imageByte, ss.image, tt.image] using h.same.image a
    · rw [tt.params, ss.params, ← h.same.params]

/-- A byte that the marking machine may fetch reads alike on both: unified reads the same memory, and split reads the
image, from which an unwritten byte has not changed. -/
theorem Unmarked.codeByte {s t : State} (h : Unmarked s t) {a : Word} (unwritten : s.isWritten a = false) :
    t.codeByte a = s.codeByte a := by
  have code : s.codeByte a = s.byte a := by simp only [State.codeByte, h.marking]
  rw [code]
  unfold State.codeByte
  split
  · next e => exact absurd e h.free
  · exact h.same.memory a
  · rw [h.same.image, h.left.unwritten_as_loaded h.marking a unwritten]

/-- What the marking machine fetches without a fault, the other fetches too. -/
theorem Unmarked.fetchWord {s t : State} (h : Unmarked s t) {w : Word} (fetch : s.fetchWord = .ok w) :
    t.fetchWord = .ok w := by
  obtain ⟨even, clean, rfl⟩ := State.fetchWord_ok.mp fetch
  have unwritten : s.isWritten s.pc = false ∧ s.isWritten (s.pc + 1) = false := by simpa [h.marking] using clean
  refine State.fetchWord_ok.mpr ⟨by rw [h.same.pc, even], fun stored => h.free stored.1, ?_⟩
  simp only [State.codeWord, h.same.endian, h.same.pc, h.codeByte unwritten.1, h.codeByte unwritten.2]

theorem Unmarked.fetchInstr {s t : State} (h : Unmarked s t) {i : Instr} (fetch : s.fetchInstr = .ok i) :
    t.fetchInstr = .ok i := by
  obtain ⟨w, hw, hi⟩ := State.fetchInstr_ok.mp fetch
  have unassigned : t.params.unassigned = s.params.unassigned := by rw [h.same.params]
  exact State.fetchInstr_ok.mpr ⟨w, h.fetchWord hw, (instrOfWord_congr unassigned w).trans hi⟩

/-- A step without a fault under IFETCH_COHERENCE = fault is one of the other machine too. -/
theorem Unmarked.step {s t u : State} (h : Unmarked s t) (hstep : step s = .next u) :
    ∃ u', step t = .next u' ∧ Unmarked u u' := by
  obtain ⟨running, i, fetch, hexec⟩ := step_next.mp hstep
  have agree := dataRelation_unmarked.exec_agree h i
  rw [hexec] at agree
  obtain ⟨u', hexec', hu⟩ := agree.next_left
  exact ⟨u', step_next.mpr ⟨h.same.halted.trans running, i, h.fetchInstr fetch, hexec'⟩, hu⟩

theorem Unmarked.runs {s s' t : State} (h : Unmarked s s') (run : Runs s t) : ∃ t', Runs s' t' ∧ Unmarked t t' := by
  induction run with
  | refl => exact ⟨s', .refl s', h⟩
  | snoc _ hstep ih =>
    obtain ⟨t', run', ht⟩ := ih
    obtain ⟨u', hstep', hu⟩ := ht.step hstep
    exact ⟨u', run'.snoc hstep', hu⟩

/-! ### The statements -/

/-- Settles O46, by a simulation of every step by one step (`Unmarked.step`) carried along the run. -/
theorem faultFreeRunsAgreeUnderEveryCoherence : Obligations.FaultFreeRunsAgreeUnderEveryCoherence := by
  intro s t s' hs hs' marking free same run
  have related : Unmarked s s' := ⟨hs, hs', marking, free, same⟩
  obtain ⟨t', run', ht⟩ := related.runs run
  exact ⟨t', run', ht.same⟩

/-- Settles O47: both machines fetch the same instruction, and no instruction tells them apart. -/
theorem byteOrderIsUnobservable : Obligations.ByteOrderIsUnobservable := by
  intro s t hs ht h
  have related : Swapped s t := ⟨hs, ht, h⟩
  exact (dataRelation_swapped.step_agree related h.fetchInstr).imp fun ⟨_, _, h'⟩ => h'

/-- Settles O17: ST and STU make one 16-bit store, and the inversion of `exec` shows no other. -/
theorem onlyStoresWriteMemory : Obligations.OnlyStoresWriteMemory := by
  intro i s t hs h
  obtain ⟨params, image, -⟩ := exec_keeps_launch_and_marks h
  refine ⟨⟨params, fun a => by simp only [State.imageByte, image]⟩, ?_⟩
  split
  · next rd rs imm =>
    obtain ⟨-, same⟩ := exec_store (.inl rfl) h
    exact (s.writeWord_frame hs.mem_wf _ _).trans_unchanged same.memoryUnchanged
  · next rd rs imm =>
    obtain ⟨-, same⟩ := exec_store (.inr rfl) h
    exact (s.writeWord_frame hs.mem_wf _ _).trans_unchanged same.memoryUnchanged
  · next notSt notStu =>
    cases exec_next h with
    | goto | result | halt | siic => exact ⟨fun _ => rfl, fun _ => rfl⟩
    | @st rd rs imm => exact absurd rfl (notSt rd rs imm)
    | @stu rd rs imm => exact absurd rfl (notStu rd rs imm)

/-- Settles O41: the store is at an even address, where a load gives what it wrote, and elsewhere what was there. -/
theorem loadReturnsTheLastStore : Obligations.LoadReturnsTheLastStore := by
  intro rd rs imm5 i s t hs hi h rd' rs' imm5'
  obtain ⟨even, same⟩ := exec_store hi h
  constructor
  · intro hit
    obtain ⟨u, load, value⟩ := exec_ld_of_even rd' (hit ▸ even)
    exact ⟨u, load, by rw [value, same.readWord, hit, State.readWord_writeWord_same s hs.mem_wf]⟩
  · intro miss even'
    obtain ⟨u, load, value⟩ := exec_ld_of_even rd' even'
    exact ⟨u, load, by rw [value, same.readWord, State.readWord_writeWord_of_ne s hs.mem_wf _ even even' miss]⟩

end Sys2Proof.Machine

/-! The match/mask table against the decoder (30_encoding.md section 5): both look at the opcode and the Op Code
Extension of a word alone, so they are compared on the 128 words in which no other bit is set. -/

namespace Sys2Proof.Machine

/-! ### The bits that select an instruction -/

/-- The word with this opcode and this extension, and no other bit set. -/
def selectorWord (op : BitVec 5) (ext : BitVec 2) : Word := op ++ (0#9 ++ ext)

@[simp] theorem opcodeField_selectorWord (op : BitVec 5) (ext : BitVec 2) :
    opcodeField (selectorWord op ext) = op := by
  revert op ext; decide

@[simp] theorem extField_selectorWord (op : BitVec 5) (ext : BitVec 2) : extField (selectorWord op ext) = ext := by
  revert op ext; decide

/-- A word is its opcode, the nine bits that select nothing, and its extension. -/
theorem word_eq_append_fields (w : Word) : w = (opcodeField w ++ (w.extractLsb 10 2 ++ extField w) : Word) := by
  simp only [opcodeField, extField, BitVec.extractLsb]
  rw [BitVec.extractLsb'_append_extractLsb'_eq_extractLsb' (by omega),
    BitVec.extractLsb'_append_extractLsb'_eq_extractLsb' (by omega)]
  exact BitVec.extractLsb'_eq_self.symm

theorem and_0xF803_eq_selectorWord (w : Word) : w &&& 0xF803 = selectorWord (opcodeField w) (extField w) := by
  conv_lhs => rw [word_eq_append_fields w]
  exact Laws.and_ext_mask _ _ _

/-! ### The table -/

/-- The rows of the table that a word matches. -/
def matchingRows (w : Word) : List OpcodeRow := opcodeTable.filter (·.fits w)

/-- No mask of the table looks past 0xF803, so the selecting bits decide which rows match. -/
theorem matchingRows_selectorWord (w : Word) :
    matchingRows (selectorWord (opcodeField w) (extField w)) = matchingRows w := by
  have masks : ∀ r ∈ opcodeTable, 0xF803 &&& r.mask = r.mask := by decide
  refine List.filter_congr fun r hr => ?_
  rw [← and_0xF803_eq_selectorWord, OpcodeRow.fits, OpcodeRow.fits, BitVec.and_assoc, masks r hr]

/-! ### The decoder -/

/-- The mnemonic of the instruction that a word decodes to. -/
def decodedMnemonic (w : Word) : Option String := ((decodeWord w).map Instr.mnemonic).toOption

/-- The operands come from the other bits; the mnemonic does not. -/
theorem decodedMnemonic_congr {v w : Word} (op : opcodeField v = opcodeField w) (ext : extField v = extField w) :
    decodedMnemonic v = decodedMnemonic w := by
  have shiftR : (decodeShiftR v).mnemonic = (decodeShiftR w).mnemonic := by
    simp only [decodeShiftR, ext]
    split <;> rfl
  have aluR : (decodeAluR v).mnemonic = (decodeAluR w).mnemonic := by
    simp only [decodeAluR, ext]
    split <;> rfl
  simp only [decodedMnemonic, decodeWord, op]
  split
  case h_25 => exact congrArg some shiftR
  case h_26 => exact congrArg some aluR
  all_goals rfl

theorem decodedMnemonic_selectorWord (w : Word) :
    decodedMnemonic (selectorWord (opcodeField w) (extField w)) = decodedMnemonic w :=
  decodedMnemonic_congr (opcodeField_selectorWord _ _) (extField_selectorWord _ _)

theorem decodedMnemonic_of_ok {w : Word} {i : Instr} (h : decodeWord w = .ok i) :
    decodedMnemonic w = some i.mnemonic := by
  rw [decodedMnemonic, h]; rfl

theorem decodedMnemonic_of_error {w : Word} {r : DecodeError} (h : decodeWord w = .error r) :
    decodedMnemonic w = none := by
  rw [decodedMnemonic, h]; rfl

/-- A word has no mnemonic exactly for the two opcodes of R83. -/
theorem decodedMnemonic_eq_none_iff (w : Word) : decodedMnemonic w = none ↔ UnassignedWord w := by
  have agree : ∀ op ext, decodedMnemonic (selectorWord op ext) = none ↔ op = 0b01111 ∨ op = 0b11001 := by decide
  rw [← decodedMnemonic_selectorWord]
  exact agree _ _

/-- The decoder refuses exactly the two opcodes of R83, and says which it met. -/
theorem decodeWord_error_iff {w : Word} {r : DecodeError} :
    decodeWord w = .error r ↔ UnassignedWord w ∧ r = .unassignedOpcode (opcodeField w) := by
  constructor
  · intro h
    refine ⟨(decodedMnemonic_eq_none_iff w).mp (decodedMnemonic_of_error h), ?_⟩
    unfold decodeWord at h
    split at h <;> cases h
    rfl
  · rintro ⟨h | h, rfl⟩
    all_goals
      simp only [decodeWord, opcodeField, h]
      rfl

/-! ### The statement -/

/-- The one comparison of table and decoder: over the 128 words of selecting bits, which stand for all words. -/
theorem mnemonics_of_matchingRows (w : Word) :
    (matchingRows w).map (·.mnemonic) = (decodedMnemonic w).toList := by
  have agree : ∀ op ext, (matchingRows (selectorWord op ext)).map (·.mnemonic) =
      (decodedMnemonic (selectorWord op ext)).toList := by decide
  rw [← matchingRows_selectorWord, ← decodedMnemonic_selectorWord]
  exact agree _ _

/-- Settles O4: the mnemonics of the matching rows are the mnemonic decoded, if any, and none is decoded exactly for
the two opcodes that the decoder refuses. -/
theorem everyWordMatchesOneRowOrIsUnassigned : Obligations.EveryWordMatchesOneRowOrIsUnassigned := by
  intro w
  refine ⟨fun i h => ?_, fun r h => ?_, fun h => ⟨_, decodeWord_error_iff.mpr ⟨h, rfl⟩⟩⟩
  · have names := mnemonics_of_matchingRows w
    rwa [decodedMnemonic_of_ok h] at names
  · obtain ⟨unassigned, named⟩ := decodeWord_error_iff.mp h
    have names := mnemonics_of_matchingRows w
    rw [decodedMnemonic_of_error h] at names
    exact ⟨named, unassigned, List.map_eq_nil_iff.mp names⟩

end Sys2Proof.Machine

/-! HALT and NOP (40_special.md), and the frame of every instruction that sets neither `halted` nor EPC nor memory. -/

namespace Sys2Proof.Machine

/-! ### The frame of an instruction that stores nothing -/

theorem SameStorage.launchUnchanged {s t : State} (h : SameStorage s t) : LaunchUnchanged s t :=
  ⟨h.params, fun a => by simp only [State.imageByte, h.image]⟩

/-- Neither HALT nor SIIC, and no store made: only the listed registers and the PC change. -/
theorem Plain.onlyRegsChanged {i : Instr} {s t : State} (plain : Plain i) (h : exec i s = .next t)
    (storage : SameStorage s t) : OnlyRegsChanged (writesRegs i) s t where
  regs := exec_regs h
  epc := by
    obtain ⟨rs, siic, -⟩ | ⟨-, kept⟩ := exec_epc h
    · exact absurd siic (plain.2 rs)
    · exact kept
  halted := Bool.eq_iff_iff.mpr ((exec_halted h).trans (or_iff_left plain.1))
  memory := storage.memoryUnchanged
  launch := storage.launchUnchanged

/-! ### HALT and NOP -/

theorem decodeWord_halt {w : Word} (opcode : w.extractLsb 15 11 = 0b00000#5) : decodeWord w = .ok .halt := by
  simp only [decodeWord, opcodeField, opcode]

theorem decodeWord_nop {w : Word} (opcode : w.extractLsb 15 11 = 0b00001#5) : decodeWord w = .ok .nop := by
  simp only [decodeWord, opcodeField, opcode]

theorem exec_halt (s : State) : exec .halt s = .next s.setHalted.advance := rfl

theorem exec_nop (s : State) : exec .nop s = .next s.advance := rfl

/-! ### The statements -/

/-- Settles O19: what `exec` leaves in each field, for HALT, and no step follows a halted state. -/
theorem haltCompletes : Obligations.HaltCompletes := by
  refine ⟨fun w => decodeWord_halt, fun s => ?_⟩
  have h := exec_halt s
  have storage : SameStorage s s.setHalted.advance := ⟨rfl, rfl, rfl, rfl⟩
  have halted := (exec_halted h).mpr (.inr rfl)
  exact ⟨_, h, halted, exec_pc h, exec_regs h, by simp, storage.memoryUnchanged, storage.launchUnchanged,
    not_step_next_of_final halted⟩

/-- Settles O20: NOP lists no register to write and makes no store, so its frame is that of `Plain.onlyRegsChanged`. -/
theorem nopOnlyAdvances : Obligations.NopOnlyAdvances := by
  refine ⟨fun w => decodeWord_nop, fun s => ?_⟩
  have h := exec_nop s
  have plain : Plain .nop := by simp [Plain]
  have storage : SameStorage s s.advance := ⟨rfl, rfl, rfl, rfl⟩
  exact ⟨_, h, exec_pc h, plain.onlyRegsChanged h storage⟩

end Sys2Proof.Machine

/-! The I-format 1 arithmetic, logical, shift and rotate instructions (41_alu_immediate.md): how their words decode,
what the values they compute are as numbers or bit by bit, and the frame of an instruction that ends by writing a
result. -/

namespace Sys2Proof.Machine

/-! ### Writing a result -/

/-- The end of most instructions: a result in `rd`, the PC at the next instruction, and nothing else (R25). -/
theorem State.writesResult_setReg_advance (s : State) (rd : Reg) (v : Word) :
    WritesResult rd v s (s.setReg rd v).advance := by
  have storage : SameStorage s (s.setReg rd v).advance := ⟨rfl, rfl, rfl, rfl⟩
  have regs : RegsUnchangedBut [rd] s (s.setReg rd v).advance := fun r other => by
    simp [List.mem_singleton.not.mp other]
  exact ⟨by simp, by simp, regs, rfl, rfl, storage.memoryUnchanged, storage.launchUnchanged⟩

/-! ### The words (R77, R79) -/

theorem decodeWord_addi {w : Word} (opcode : w.extractLsb 15 11 = 0b01000#5) :
    decodeWord w = .ok (.addi (rdFieldI w) (rsField w) (imm5Field w)) := by
  simp only [decodeWord, opcodeField, opcode]

theorem decodeWord_subi {w : Word} (opcode : w.extractLsb 15 11 = 0b01001#5) :
    decodeWord w = .ok (.subi (rdFieldI w) (rsField w) (imm5Field w)) := by
  simp only [decodeWord, opcodeField, opcode]

theorem decodeWord_ori {w : Word} (opcode : w.extractLsb 15 11 = 0b01010#5) :
    decodeWord w = .ok (.ori (rdFieldI w) (rsField w) (imm5Field w)) := by
  simp only [decodeWord, opcodeField, opcode]

theorem decodeWord_andi {w : Word} (opcode : w.extractLsb 15 11 = 0b01011#5) :
    decodeWord w = .ok (.andi (rdFieldI w) (rsField w) (imm5Field w)) := by
  simp only [decodeWord, opcodeField, opcode]

theorem decodeWord_roli {w : Word} (opcode : w.extractLsb 15 11 = 0b10100#5) :
    decodeWord w = .ok (.roli (rdFieldI w) (rsField w) (shiftImmField w)) := by
  simp only [decodeWord, opcodeField, opcode]

theorem decodeWord_slli {w : Word} (opcode : w.extractLsb 15 11 = 0b10101#5) :
    decodeWord w = .ok (.slli (rdFieldI w) (rsField w) (shiftImmField w)) := by
  simp only [decodeWord, opcodeField, opcode]

theorem decodeWord_rori {w : Word} (opcode : w.extractLsb 15 11 = 0b10110#5) :
    decodeWord w = .ok (.rori (rdFieldI w) (rsField w) (shiftImmField w)) := by
  simp only [decodeWord, opcodeField, opcode]

theorem decodeWord_srai {w : Word} (opcode : w.extractLsb 15 11 = 0b10111#5) :
    decodeWord w = .ok (.srai (rdFieldI w) (rsField w) (shiftImmField w)) := by
  simp only [decodeWord, opcodeField, opcode]

/-- The shift amount that the decoder reads is insn[3:0]; insn[4] is dropped (R82). -/
theorem shiftImmField_toNat (w : Word) : (shiftImmField w).toNat = w.toNat % 16 := by
  rw [shiftImmField, BitVec.toNat_setWidth_of_le (by decide)]
  simp

/-! ### The values -/

theorem ofInt_add_eq_add_sext16 (a : Word) (imm5 : BitVec 5) :
    BitVec.ofInt 16 (a.toInt + imm5.toInt) = a + sext16 imm5 := by
  rw [← sext16_toInt imm5 (by decide), BitVec.ofInt_add, BitVec.ofInt_toInt, BitVec.ofInt_toInt]

theorem ofInt_sub_eq_sext16_sub (a : Word) (imm5 : BitVec 5) :
    BitVec.ofInt 16 (imm5.toInt - a.toInt) = sext16 imm5 - a := by
  rw [← sext16_toInt imm5 (by decide), Int.sub_eq_add_neg, BitVec.ofInt_add, BitVec.ofInt_neg, BitVec.ofInt_toInt,
    BitVec.ofInt_toInt, ← BitVec.sub_eq_add_neg]

/-- The bits of a zero-extended field are those of the field, and 0 above it. -/
theorem zext16_getLsbD {n : Nat} (v : BitVec n) {k : Nat} (hk : k < 16) :
    (zext16 v).getLsbD k = (decide (k < n) && v.getLsbD k) := by
  rw [zext16, BitVec.getLsbD_setWidth]
  by_cases low : k < n
  · simp [hk, low]
  · simp [low, BitVec.getLsbD_of_ge v k (Nat.le_of_not_lt low)]

/-- A rotate left is the rotate right by what is missing to 16: the same two shifts of the word, or-ed. -/
theorem rol16_eq_ror16 (v : Word) {m n : BitVec 4} (h : (m.toNat + n.toNat) % 16 = 0) : rol16 v m = ror16 v n := by
  have hm : m.toNat < 16 := m.isLt
  have hn : n.toNat < 16 := n.isLt
  rw [rol16, ror16, BitVec.rotateLeft_def, BitVec.rotateRight_def, Nat.mod_eq_of_lt hm, Nat.mod_eq_of_lt hn]
  obtain ⟨m0, n0⟩ | ⟨left, right⟩ :
      (m.toNat = 0 ∧ n.toNat = 0) ∨ (m.toNat = 16 - n.toNat ∧ 16 - m.toNat = n.toNat) := by omega
  · simp [m0, n0, BitVec.ushiftRight_eq_zero]
  · rw [right, left, BitVec.or_comm]

/-! ### What each instruction answers -/

section
variable (rd rs : Reg) (imm5 : BitVec 5) (s : State)

theorem exec_addi : exec (.addi rd rs imm5) s = .next (s.setReg rd (s.reg rs + sext16 imm5)).advance := rfl

theorem exec_subi : exec (.subi rd rs imm5) s = .next (s.setReg rd (sext16 imm5 - s.reg rs)).advance := rfl

theorem exec_ori : exec (.ori rd rs imm5) s = .next (s.setReg rd (s.reg rs ||| zext16 imm5)).advance := rfl

theorem exec_andi : exec (.andi rd rs imm5) s = .next (s.setReg rd (s.reg rs &&& zext16 imm5)).advance := rfl

theorem exec_roli :
    exec (.roli rd rs imm5) s = .next (s.setReg rd (rol16 (s.reg rs) (shiftAmountImm imm5))).advance := rfl

theorem exec_slli :
    exec (.slli rd rs imm5) s = .next (s.setReg rd (sll16 (s.reg rs) (shiftAmountImm imm5))).advance := rfl

theorem exec_rori :
    exec (.rori rd rs imm5) s = .next (s.setReg rd (ror16 (s.reg rs) (shiftAmountImm imm5))).advance := rfl

theorem exec_srai :
    exec (.srai rd rs imm5) s = .next (s.setReg rd (sra16 (s.reg rs) (shiftAmountImm imm5))).advance := rfl

end

/-! ### The statements -/

/-- Settles O21: the signed sum and difference modulo 2^16 are those of the sign-extended words. -/
theorem addiSubiResult : Obligations.AddiSubiResult := by
  refine ⟨fun _ => decodeWord_addi, fun _ => decodeWord_subi, fun rd rs imm5 s => ?_, fun rd rs imm5 s => ?_⟩
  · rw [ofInt_add_eq_add_sext16]
    exact ⟨_, exec_addi rd rs imm5 s, s.writesResult_setReg_advance rd _⟩
  · rw [ofInt_sub_eq_sext16_sub]
    exact ⟨_, exec_subi rd rs imm5 s, s.writesResult_setReg_advance rd _⟩

/-- Settles O22: bit k of the result, with the bits of the zero-extended immediate. -/
theorem oriAndiResult : Obligations.OriAndiResult := by
  refine ⟨fun _ => decodeWord_ori, fun _ => decodeWord_andi, fun rd rs imm5 s => ?_, fun rd rs imm5 s => ?_⟩
  · refine ⟨_, _, exec_ori rd rs imm5 s, fun k hk => ?_, s.writesResult_setReg_advance rd _⟩
    rw [BitVec.getLsbD_or, zext16_getLsbD imm5 hk]
  · refine ⟨_, _, exec_andi rd rs imm5 s, fun k hk => ?_, s.writesResult_setReg_advance rd _⟩
    rw [BitVec.getLsbD_and, zext16_getLsbD imm5 hk]

/-- Settles O23: the numbers of `rol_16` and `ror_16` at the amount imm5[3:0]; amounts that add up to 0 modulo 16
give one value, hence one answer. -/
theorem roliRoriResult : Obligations.RoliRoriResult := by
  refine ⟨fun w opcode => ⟨_, shiftImmField_toNat w, decodeWord_roli opcode⟩,
    fun w opcode => ⟨_, shiftImmField_toNat w, decodeWord_rori opcode⟩,
    fun rd rs imm5 s => ?_, fun rd rs imm5 s => ?_, fun rd rs l r s opposite => ?_⟩
  · refine ⟨_, _, exec_roli rd rs imm5 s, ?_, s.writesResult_setReg_advance rd _⟩
    rw [rol16_toNat, shiftAmountImm_toNat]
  · refine ⟨_, _, exec_rori rd rs imm5 s, ?_, s.writesResult_setReg_advance rd _⟩
    rw [ror16_toNat, shiftAmountImm_toNat]
  · have amounts : ((shiftAmountImm l).toNat + (shiftAmountImm r).toNat) % 16 = 0 := by
      rw [shiftAmountImm_toNat, shiftAmountImm_toNat, ← Nat.add_mod, opposite]
    rw [exec_roli, exec_rori, rol16_eq_ror16 _ amounts]

/-- Settles O24: the numbers of `sll_16` and `sra_16` at the amount imm5[3:0]. -/
theorem slliSraiResult : Obligations.SlliSraiResult := by
  refine ⟨fun w opcode => ⟨_, shiftImmField_toNat w, decodeWord_slli opcode⟩,
    fun w opcode => ⟨_, shiftImmField_toNat w, decodeWord_srai opcode⟩,
    fun rd rs imm5 s => ?_, fun rd rs imm5 s => ?_⟩
  · refine ⟨_, _, exec_slli rd rs imm5 s, ?_, s.writesResult_setReg_advance rd _⟩
    rw [sll16_toNat, shiftAmountImm_toNat]
  · refine ⟨_, _, exec_srai rd rs imm5 s, ?_, s.writesResult_setReg_advance rd _⟩
    rw [sra16_toInt, shiftAmountImm_toNat]

end Sys2Proof.Machine

/-! The alignment check of LD, ST and STU (42_load_store.md R135): the effective address as a number, and its parity. -/

namespace Sys2Proof.Machine

/-- The effective address is Rs plus the signed immediate, modulo 2^16 (R133). -/
theorem State.effAddr_eq_ofInt (s : State) (rs : Reg) (imm5 : BitVec 5) :
    s.effAddr rs imm5 = BitVec.ofInt 16 ((s.reg rs).toNat + imm5.toInt) := by
  rw [State.effAddr, ← sext16_toInt imm5 (by decide), BitVec.ofInt_add, BitVec.ofInt_natCast,
    BitVec.ofNat_toNat, BitVec.setWidth_eq, BitVec.ofInt_toInt]

/-- Reducing modulo 2^16 keeps the parity, which is bit 0. -/
theorem ofInt_getLsbD_zero_of_odd {z : Int} (odd : z % 2 = 1) : (BitVec.ofInt 16 z).getLsbD 0 = true := by
  rw [BitVec.getLsbD, Nat.testBit_zero, BitVec.toNat_ofInt, decide_eq_true_eq]
  omega

/-- Settles O40: the sum's parity is bit 0 of the effective address, which each of the three checks before anything
else. -/
theorem oddDataAddressFaults : Obligations.OddDataAddressFaults := by
  intro rd rs imm5 s oddSum
  have odd : (s.effAddr rs imm5).getLsbD 0 = true := by
    rw [s.effAddr_eq_ofInt]
    exact ofInt_getLsbD_zero_of_odd oddSum
  exact ⟨ifAligned_of_odd _ odd, ifAligned_of_odd _ odd, ifAligned_of_odd _ odd⟩

end Sys2Proof.Machine

/-! The R-format arithmetic, logical, shift and rotate instructions (43_alu_register.md): how their words decode, what
the sum and the difference are as signed numbers, and what each instruction answers. -/

namespace Sys2Proof.Machine

/-! ### The words (R79, R80) -/

section
variable {w : Word}

theorem decodeWord_rol (opcode : w.extractLsb 15 11 = 0b11010#5) (ext : w.extractLsb 1 0 = 0b00#2) :
    decodeWord w = .ok (.rol (rdFieldR w) (rsField w) (rtField w)) := by
  simp only [decodeWord, decodeShiftR, opcodeField, extField, opcode, ext]

theorem decodeWord_sll (opcode : w.extractLsb 15 11 = 0b11010#5) (ext : w.extractLsb 1 0 = 0b01#2) :
    decodeWord w = .ok (.sll (rdFieldR w) (rsField w) (rtField w)) := by
  simp only [decodeWord, decodeShiftR, opcodeField, extField, opcode, ext]

theorem decodeWord_ror (opcode : w.extractLsb 15 11 = 0b11010#5) (ext : w.extractLsb 1 0 = 0b10#2) :
    decodeWord w = .ok (.ror (rdFieldR w) (rsField w) (rtField w)) := by
  simp only [decodeWord, decodeShiftR, opcodeField, extField, opcode, ext]

theorem decodeWord_sra (opcode : w.extractLsb 15 11 = 0b11010#5) (ext : w.extractLsb 1 0 = 0b11#2) :
    decodeWord w = .ok (.sra (rdFieldR w) (rsField w) (rtField w)) := by
  simp only [decodeWord, decodeShiftR, opcodeField, extField, opcode, ext]

theorem decodeWord_add (opcode : w.extractLsb 15 11 = 0b11011#5) (ext : w.extractLsb 1 0 = 0b00#2) :
    decodeWord w = .ok (.add (rdFieldR w) (rsField w) (rtField w)) := by
  simp only [decodeWord, decodeAluR, opcodeField, extField, opcode, ext]

theorem decodeWord_sub (opcode : w.extractLsb 15 11 = 0b11011#5) (ext : w.extractLsb 1 0 = 0b01#2) :
    decodeWord w = .ok (.sub (rdFieldR w) (rsField w) (rtField w)) := by
  simp only [decodeWord, decodeAluR, opcodeField, extField, opcode, ext]

theorem decodeWord_or (opcode : w.extractLsb 15 11 = 0b11011#5) (ext : w.extractLsb 1 0 = 0b10#2) :
    decodeWord w = .ok (.or (rdFieldR w) (rsField w) (rtField w)) := by
  simp only [decodeWord, decodeAluR, opcodeField, extField, opcode, ext]

theorem decodeWord_and (opcode : w.extractLsb 15 11 = 0b11011#5) (ext : w.extractLsb 1 0 = 0b11#2) :
    decodeWord w = .ok (.and (rdFieldR w) (rsField w) (rtField w)) := by
  simp only [decodeWord, decodeAluR, opcodeField, extField, opcode, ext]

end

/-! ### The values -/

theorem ofInt_toInt_add_toInt (a b : Word) : BitVec.ofInt 16 (a.toInt + b.toInt) = a + b := by
  rw [BitVec.ofInt_add, BitVec.ofInt_toInt, BitVec.ofInt_toInt]

theorem ofInt_toInt_sub_toInt (a b : Word) : BitVec.ofInt 16 (a.toInt - b.toInt) = a - b := by
  rw [Int.sub_eq_add_neg, BitVec.ofInt_add, BitVec.ofInt_neg, BitVec.ofInt_toInt, BitVec.ofInt_toInt,
    ← BitVec.sub_eq_add_neg]

/-! ### What each instruction answers -/

section
variable (rd rs rt : Reg) (s : State)

theorem exec_add : exec (.add rd rs rt) s = .next (s.setReg rd (s.reg rs + s.reg rt)).advance := rfl

theorem exec_sub : exec (.sub rd rs rt) s = .next (s.setReg rd (s.reg rt - s.reg rs)).advance := rfl

theorem exec_or : exec (.or rd rs rt) s = .next (s.setReg rd (s.reg rs ||| s.reg rt)).advance := rfl

theorem exec_and : exec (.and rd rs rt) s = .next (s.setReg rd (s.reg rs &&& s.reg rt)).advance := rfl

theorem exec_rol :
    exec (.rol rd rs rt) s = .next (s.setReg rd (rol16 (s.reg rs) (shiftAmountReg (s.reg rt)))).advance := rfl

theorem exec_sll :
    exec (.sll rd rs rt) s = .next (s.setReg rd (sll16 (s.reg rs) (shiftAmountReg (s.reg rt)))).advance := rfl

theorem exec_ror :
    exec (.ror rd rs rt) s = .next (s.setReg rd (ror16 (s.reg rs) (shiftAmountReg (s.reg rt)))).advance := rfl

theorem exec_sra :
    exec (.sra rd rs rt) s = .next (s.setReg rd (sra16 (s.reg rs) (shiftAmountReg (s.reg rt)))).advance := rfl

end

/-! ### The statements -/

/-- Settles O25: the signed sum and difference modulo 2^16 are those of the words. -/
theorem addSubResult : Obligations.AddSubResult := by
  refine ⟨fun _ => decodeWord_add, fun _ => decodeWord_sub, fun rd rs rt s => ?_, fun rd rs rt s => ?_⟩
  · rw [ofInt_toInt_add_toInt]
    exact ⟨_, exec_add rd rs rt s, s.writesResult_setReg_advance rd _⟩
  · rw [ofInt_toInt_sub_toInt]
    exact ⟨_, exec_sub rd rs rt s, s.writesResult_setReg_advance rd _⟩

/-- Settles O26: bit k of an `or` and of an `and` of two words. -/
theorem orAndResult : Obligations.OrAndResult := by
  refine ⟨fun _ => decodeWord_or, fun _ => decodeWord_and, fun rd rs rt s => ?_, fun rd rs rt s => ?_⟩
  · exact ⟨_, _, exec_or rd rs rt s, fun k _ => BitVec.getLsbD_or, s.writesResult_setReg_advance rd _⟩
  · exact ⟨_, _, exec_and rd rs rt s, fun k _ => BitVec.getLsbD_and, s.writesResult_setReg_advance rd _⟩

/-- Settles O27: the numbers of `rol_16` and `ror_16` at the amount x[Rt][3:0]. -/
theorem rolRorResult : Obligations.RolRorResult := by
  refine ⟨fun _ => decodeWord_rol, fun _ => decodeWord_ror, fun rd rs rt s => ?_, fun rd rs rt s => ?_⟩
  · refine ⟨_, _, exec_rol rd rs rt s, ?_, s.writesResult_setReg_advance rd _⟩
    rw [rol16_toNat, shiftAmountReg_toNat]
  · refine ⟨_, _, exec_ror rd rs rt s, ?_, s.writesResult_setReg_advance rd _⟩
    rw [ror16_toNat, shiftAmountReg_toNat]

/-- Settles O28: the numbers of `sll_16` and `sra_16` at the amount x[Rt][3:0]. -/
theorem sllSraResult : Obligations.SllSraResult := by
  refine ⟨fun _ => decodeWord_sll, fun _ => decodeWord_sra, fun rd rs rt s => ?_, fun rd rs rt s => ?_⟩
  · refine ⟨_, _, exec_sll rd rs rt s, ?_, s.writesResult_setReg_advance rd _⟩
    rw [sll16_toNat, shiftAmountReg_toNat]
  · refine ⟨_, _, exec_sra rd rs rt s, ?_, s.writesResult_setReg_advance rd _⟩
    rw [sra16_toInt, shiftAmountReg_toNat]

end Sys2Proof.Machine

/-! The set instructions SEQ and SCO (44_set.md): how their words decode, the condition whose outcome each computes, and
what each instruction answers. -/

namespace Sys2Proof.Machine

/-! ### The words (R81) -/

section
variable {w : Word}

theorem decodeWord_seq (opcode : w.extractLsb 15 11 = 0b11100#5) :
    decodeWord w = .ok (.seq (rdFieldR w) (rsField w) (rtField w)) := by
  simp only [decodeWord, opcodeField, opcode]

theorem decodeWord_sco (opcode : w.extractLsb 15 11 = 0b11111#5) :
    decodeWord w = .ok (.sco (rdFieldR w) (rsField w) (rtField w)) := by
  simp only [decodeWord, opcodeField, opcode]

end

/-! ### The values (R164) -/

/-- A condition computed as a `Bool` writes the 1 or 0 of the proposition it decides. -/
theorem boolWord_eq_ite {b : Bool} {p : Prop} [Decidable p] (decides : b = true ↔ p) :
    boolWord b = if p then 0x0001 else 0x0000 :=
  if_congr decides rfl rfl

/-- SEQ's condition is the equality of the words. -/
theorem condEq_iff (a b : Word) : condEq a b = true ↔ a = b := beq_iff_eq

/-! ### What each instruction answers -/

section
variable (rd rs rt : Reg) (s : State)

theorem exec_seq :
    exec (.seq rd rs rt) s = .next (s.setReg rd (boolWord (condEq (s.reg rs) (s.reg rt)))).advance := rfl

theorem exec_sco :
    exec (.sco rd rs rt) s = .next (s.setReg rd (boolWord (condCarryOut (s.reg rs) (s.reg rt)))).advance := rfl

end

/-! ### The statement -/

/-- Settles O29: equality of the words, and bit 16 of the 17-bit sum as the bound on the unbounded one. -/
theorem seqScoResult : Obligations.SeqScoResult := by
  refine ⟨fun _ => decodeWord_seq, fun _ => decodeWord_sco, fun rd rs rt s => ?_, fun rd rs rt s => ?_⟩
  · rw [← boolWord_eq_ite (condEq_iff _ _)]
    exact ⟨_, exec_seq rd rs rt s, s.writesResult_setReg_advance rd _⟩
  · rw [← boolWord_eq_ite (condCarryOut_iff _ _)]
    exact ⟨_, exec_sco rd rs rt s, s.writesResult_setReg_advance rd _⟩

end Sys2Proof.Machine

/-! The conditional branches BEQZ and BNEZ (45_branch.md): how their words decode, the target as a number, and what
every instruction that only sets the PC leaves behind. -/

namespace Sys2Proof.Machine

/-! ### The words (R74) -/

section
variable {w : Word}

theorem decodeWord_beqz (opcode : w.extractLsb 15 11 = 0b01100#5) :
    decodeWord w = .ok (.beqz (rsField w) (imm8Field w)) := by
  simp only [decodeWord, opcodeField, opcode]

theorem decodeWord_bnez (opcode : w.extractLsb 15 11 = 0b01101#5) :
    decodeWord w = .ok (.bnez (rsField w) (imm8Field w)) := by
  simp only [decodeWord, opcodeField, opcode]

end

/-! ### Setting the PC -/

/-- A PC-relative target is PC + 2 plus the signed displacement, modulo 2^16 (R172). -/
theorem State.relTarget_eq_ofInt (s : State) {n : Nat} (disp : BitVec n) (h : n ≤ 16) :
    s.relTarget disp = BitVec.ofInt 16 (s.pc.toNat + 2 + disp.toInt) := by
  have next : BitVec.ofInt 16 (s.pc.toNat + 2) = s.nextPc := by
    rw [BitVec.ofInt_add, BitVec.ofInt_natCast, BitVec.ofNat_toNat, BitVec.setWidth_eq]
    rfl
  rw [State.relTarget, ← sext16_toInt disp h, BitVec.ofInt_add, next, BitVec.ofInt_toInt]

/-- An instruction that only sets the PC changes nothing else. -/
theorem State.onlyRegsChanged_setPc (s : State) (p : Word) : OnlyRegsChanged [] s (s.setPc p) where
  regs _ _ := rfl
  epc := rfl
  halted := rfl
  memory := ⟨fun _ => rfl, fun _ => rfl⟩
  launch := ⟨rfl, fun _ => rfl⟩

/-- The fetch checks the parity of the PC before anything else (R46). -/
theorem State.fetchInstr_of_odd_pc {t : State} (odd : t.pc.getLsbD 0 = true) :
    t.fetchInstr = .error .misalignedFetch := by
  simp only [State.fetchInstr, State.fetchWord, odd, if_true]

/-- A machine that runs at an odd PC takes no step, whatever instruction left it there. -/
theorem oddPcStopsNextStep (t : State) : OddPcStopsNextStep t := by
  intro running odd
  simp [step, running, State.fetchInstr_of_odd_pc odd]

/-! ### The statement -/

/-- Settles O31: a branch only sets the PC, and `pcAfter` is the rule of the statement once its target is read as a
number. -/
theorem branchResult : Obligations.BranchResult := by
  refine ⟨fun _ => decodeWord_beqz, fun _ => decodeWord_bnez, fun rs imm8 s => ?_, fun rs imm8 s => ?_⟩
  · rw [← s.relTarget_eq_ofInt imm8 (by decide)]
    exact ⟨_, exec_beqz rs imm8 s, rfl, s.onlyRegsChanged_setPc _, oddPcStopsNextStep _⟩
  · rw [← s.relTarget_eq_ofInt imm8 (by decide)]
    exact ⟨_, exec_bnez rs imm8 s, rfl, s.onlyRegsChanged_setPc _, oddPcStopsNextStep _⟩

end Sys2Proof.Machine

/-! LBI and SLBI (46_load_immediate.md): how their words decode, the two values byte by byte, and what each instruction
answers. -/

namespace Sys2Proof.Machine

/-! ### The words (R74) -/

section
variable {w : Word}

theorem decodeWord_lbi (opcode : w.extractLsb 15 11 = 0b11000#5) :
    decodeWord w = .ok (.lbi (rsField w) (imm8Field w)) := by
  simp only [decodeWord, opcodeField, opcode]

theorem decodeWord_slbi (opcode : w.extractLsb 15 11 = 0b10010#5) :
    decodeWord w = .ok (.slbi (rsField w) (imm8Field w)) := by
  simp only [decodeWord, opcodeField, opcode]

end

/-! ### The values (R180, R181) -/

/-- Sign extension keeps the low byte. -/
theorem extractLsb_sext16 (imm8 : BitVec 8) : (sext16 imm8).extractLsb 7 0 = imm8 := by
  apply BitVec.eq_of_getLsbD_eq
  intro k (hk : k < 8)
  have inWord : k < 16 := by omega
  rw [sext16, BitVec.getLsbD_extractLsb, BitVec.getLsbD_signExtend, Nat.zero_add, if_pos hk]
  simp [inWord, hk]

/-- Shifted left by 8, a word has its low byte on top and zeros below, where the immediate goes. -/
theorem sll16_eight_or_zext16 (v : Word) (imm8 : BitVec 8) :
    sll16 v 8 ||| zext16 imm8 = v.extractLsb 7 0 ++ imm8 := by
  apply BitVec.eq_of_getLsbD_eq
  intro k hk
  rw [BitVec.getLsbD_or, zext16_getLsbD imm8 hk, BitVec.getLsbD_append, BitVec.getLsbD_extractLsb, Nat.zero_add]
  by_cases low : k < 8
  · simp [sll16, low]
  · have inByte : k - 8 < 8 := by omega
    have inWord : k - 8 < 16 := by omega
    simp [sll16, low, hk, inByte, inWord]

/-! ### What each instruction answers -/

section
variable (rs : Reg) (imm8 : BitVec 8) (s : State)

theorem exec_lbi : exec (.lbi rs imm8) s = .next (s.setReg rs (sext16 imm8)).advance := rfl

theorem exec_slbi : exec (.slbi rs imm8) s = .next (s.setReg rs ((s.reg rs).extractLsb 7 0 ++ imm8)).advance := by
  rw [← sll16_eight_or_zext16]
  rfl

end

/-! ### The statement -/

/-- Settles O32: LBI leaves hh as the low byte of its word, and SLBI reads no more of the register than that byte. -/
theorem lbiSlbiResult : Obligations.LbiSlbiResult := by
  refine ⟨fun _ => decodeWord_lbi, fun _ => decodeWord_slbi, fun rs imm8 s => ?_, fun rs imm8 s => ?_,
    fun rs hh ll s => ?_⟩
  · rw [← sext16_toInt imm8 (by decide), BitVec.ofInt_toInt]
    exact ⟨_, exec_lbi rs imm8 s, s.writesResult_setReg_advance rs _⟩
  · exact ⟨_, exec_slbi rs imm8 s, s.writesResult_setReg_advance rs _⟩
  · have loaded := (s.writesResult_setReg_advance rs (sext16 hh)).result
    refine ⟨_, _, exec_lbi rs hh s, exec_slbi rs ll _, ?_⟩
    rw [(State.writesResult_setReg_advance _ rs _).result, loaded, extractLsb_sext16]

end Sys2Proof.Machine

/-! The jumps J, JR and RET and the call JAL (47_jump.md): how their words decode, the register target as a number, and
what each instruction answers. -/

namespace Sys2Proof.Machine

/-! ### The words (R72, R74, R76) -/

section
variable {w : Word}

theorem decodeWord_j (opcode : w.extractLsb 15 11 = 0b00100#5) : decodeWord w = .ok (.j (disp11Field w)) := by
  simp only [decodeWord, opcodeField, opcode]

theorem decodeWord_jr (opcode : w.extractLsb 15 11 = 0b00101#5) :
    decodeWord w = .ok (.jr (rsField w) (imm8Field w)) := by
  simp only [decodeWord, opcodeField, opcode]

theorem decodeWord_jal (opcode : w.extractLsb 15 11 = 0b00110#5) : decodeWord w = .ok (.jal (disp11Field w)) := by
  simp only [decodeWord, opcodeField, opcode]

theorem decodeWord_ret (opcode : w.extractLsb 15 11 = 0b01110#5) : decodeWord w = .ok .ret := by
  simp only [decodeWord, opcodeField, opcode]

end

/-! ### The register target -/

/-- A register target is Rs plus the signed immediate, modulo 2^16 (R196). -/
theorem State.regTarget_eq_ofInt (s : State) (rs : Reg) (imm8 : BitVec 8) :
    s.regTarget rs imm8 = BitVec.ofInt 16 ((s.reg rs).toNat + imm8.toInt) := by
  rw [State.regTarget, ← sext16_toInt imm8 (by decide), BitVec.ofInt_add, BitVec.ofInt_natCast,
    BitVec.ofNat_toNat, BitVec.setWidth_eq, BitVec.ofInt_toInt]

/-- With immediate 0 the register target is the register, which makes RET the same as JR R7, 0 (R194). -/
theorem State.regTarget_zero (s : State) (rs : Reg) : s.regTarget rs 0 = s.reg rs :=
  BitVec.add_zero (s.reg rs)

/-! ### What each instruction answers -/

section
variable (rs : Reg) (imm8 : BitVec 8) (disp11 : BitVec 11) (s : State)

theorem exec_j : exec (.j disp11) s = .next (s.setPc (s.relTarget disp11)) := rfl

theorem exec_jr : exec (.jr rs imm8) s = .next (s.setPc (s.regTarget rs imm8)) := rfl

theorem exec_jal : exec (.jal disp11) s = .next ((s.setReg .R7 (s.pc + 2)).setPc (s.relTarget disp11)) := rfl

theorem exec_ret : exec .ret s = .next (s.setPc (s.reg .R7)) := rfl

end

/-! ### The statements -/

/-- Settles O33: J only sets the PC, to its PC-relative target read as a number. -/
theorem jumpResult : Obligations.JumpResult := by
  refine ⟨fun _ => decodeWord_j, fun disp11 s => ?_⟩
  rw [← s.relTarget_eq_ofInt disp11 (by decide)]
  exact ⟨_, exec_j disp11 s, rfl, s.onlyRegsChanged_setPc _, oddPcStopsNextStep _⟩

/-- Settles O34: JR and RET only set the PC, and R7 is the register target of JR R7, 0. -/
theorem jumpRegisterAndReturnResult : Obligations.JumpRegisterAndReturnResult := by
  refine ⟨fun _ => decodeWord_jr, fun _ => decodeWord_ret, fun rs imm8 s => ?_, fun s => ?_, fun s => ?_⟩
  · rw [← s.regTarget_eq_ofInt rs imm8]
    exact ⟨_, exec_jr rs imm8 s, rfl, s.onlyRegsChanged_setPc _, oddPcStopsNextStep _⟩
  · exact ⟨_, exec_ret s, rfl, s.onlyRegsChanged_setPc _, oddPcStopsNextStep _⟩
  · rw [exec_ret, exec_jr, State.regTarget_zero]

/-- Settles O35: JAL lists R7 alone as written and makes no store, so its frame is that of `Plain.onlyRegsChanged`; the
link and the target are both computed in the state before it. -/
theorem jumpAndLinkResult : Obligations.JumpAndLinkResult := by
  refine ⟨fun _ => decodeWord_jal, fun disp11 s => ?_⟩
  have answer := exec_jal disp11 s
  have plain : Plain (.jal disp11) := by simp [Plain]
  rw [← s.relTarget_eq_ofInt disp11 (by decide)]
  exact ⟨_, answer, s.reg_setReg_same .R7 _, rfl, plain.onlyRegsChanged answer ⟨rfl, rfl, rfl, rfl⟩,
    oddPcStopsNextStep _⟩

end Sys2Proof.Machine

/-! The encoder against the decoder (30_encoding.md sections 2 to 5): the fields that each format lays down are the ones
that the decoder reads, and a word is its fields laid down again, up to the ignored bits. -/

namespace Sys2Proof

open Machine

@[simp] theorem Reg.ofBits_toBits (r : Reg) : Reg.ofBits r.toBits = r := by cases r <;> rfl

@[simp] theorem Reg.toBits_ofBits (n : BitVec 3) : (Reg.ofBits n).toBits = n := by revert n; decide

/-! ### The fields of an encoded word (R72 to R76) -/

/-- In `high ++ field ++ low`, the bits above `low` are the field. -/
theorem extractLsb'_append_append {h n l : Nat} (high : BitVec h) (field : BitVec n) (low : BitVec l) :
    (high ++ field ++ low).extractLsb' l n = field := by
  rw [BitVec.extractLsb'_append_eq_of_le (Nat.le_refl l), Nat.sub_self, BitVec.extractLsb'_append_eq_right]

section
variable (op : BitVec 5) (rs rt rd : Reg) (ext : BitVec 2) (imm5 : BitVec 5) (imm8 : BitVec 8) (disp11 : BitVec 11)

@[simp] theorem opcodeField_encodeOpcodeOnly : opcodeField (encodeOpcodeOnly op) = op :=
  BitVec.extractLsb'_append_eq_left

@[simp] theorem opcodeField_encodeJ : opcodeField (encodeJ op disp11) = op :=
  BitVec.extractLsb'_append_eq_left

@[simp] theorem disp11Field_encodeJ : disp11Field (encodeJ op disp11) = disp11 :=
  BitVec.extractLsb'_append_eq_right

@[simp] theorem opcodeField_encodeI2 : opcodeField (encodeI2 op rs imm8) = op := by
  rw [Laws.encodeI2_eq]
  exact BitVec.extractLsb'_append_eq_left

@[simp] theorem rsField_encodeI2 : rsField (encodeI2 op rs imm8) = rs :=
  (congrArg Reg.ofBits (extractLsb'_append_append op rs.toBits imm8)).trans rs.ofBits_toBits

@[simp] theorem imm8Field_encodeI2 : imm8Field (encodeI2 op rs imm8) = imm8 :=
  BitVec.extractLsb'_append_eq_right

@[simp] theorem opcodeField_encodeI1 : opcodeField (encodeI1 op rs rd imm5) = op := by
  rw [Laws.encodeI1_eq]
  exact BitVec.extractLsb'_append_eq_left

@[simp] theorem rdFieldI_encodeI1 : rdFieldI (encodeI1 op rs rd imm5) = rd :=
  (congrArg Reg.ofBits (extractLsb'_append_append (op ++ rs.toBits) rd.toBits imm5)).trans rd.ofBits_toBits

@[simp] theorem imm5Field_encodeI1 : imm5Field (encodeI1 op rs rd imm5) = imm5 :=
  BitVec.extractLsb'_append_eq_right

@[simp] theorem opcodeField_encodeR : opcodeField (encodeR op rs rt rd ext) = op := by
  rw [Laws.encodeR_eq]
  exact BitVec.extractLsb'_append_eq_left

/-- The R-format is I-format 1 with Rt where that has Rd, and Rd and the extension where that has the immediate. -/
theorem encodeR_eq_encodeI1 : encodeR op rs rt rd ext = encodeI1 op rs rt (rd.toBits ++ ext) := by
  rw [encodeR, encodeI1, BitVec.append_assoc]
  rfl

/-- I-format 1 is I-format 2 with Rd and the immediate where that has its immediate. -/
theorem encodeI1_eq_encodeI2 : encodeI1 op rs rd imm5 = encodeI2 op rs (rd.toBits ++ imm5) := by
  rw [encodeI1, encodeI2, BitVec.append_assoc]
  rfl

@[simp] theorem rsField_encodeI1 : rsField (encodeI1 op rs rd imm5) = rs := by
  rw [encodeI1_eq_encodeI2, rsField_encodeI2]

@[simp] theorem rsField_encodeR : rsField (encodeR op rs rt rd ext) = rs := by
  rw [encodeR_eq_encodeI1, rsField_encodeI1]

@[simp] theorem rtField_encodeR : rtField (encodeR op rs rt rd ext) = rt := by
  rw [encodeR_eq_encodeI1]
  exact rdFieldI_encodeI1 op rs rt _

@[simp] theorem rdFieldR_encodeR : rdFieldR (encodeR op rs rt rd ext) = rd :=
  (congrArg Reg.ofBits (extractLsb'_append_append (op ++ rs.toBits ++ rt.toBits) rd.toBits ext)).trans rd.ofBits_toBits

@[simp] theorem extField_encodeR : extField (encodeR op rs rt rd ext) = ext :=
  BitVec.extractLsb'_append_eq_right

/-- A shift amount that fits is not changed by dropping insn[4]. -/
theorem shiftImmField_encodeI1 {imm5 : BitVec 5} (fits : shiftAmountFits imm5 = true) :
    shiftImmField (encodeI1 op rs rd imm5) = imm5 := by
  have small : imm5.toNat ≤ 15 := of_decide_eq_true fits
  have low : (encodeI1 op rs rd imm5).toNat % 32 = imm5.toNat := by
    simpa [imm5Field] using congrArg BitVec.toNat (imm5Field_encodeI1 op rs rd imm5)
  apply BitVec.eq_of_toNat_eq
  rw [shiftImmField_toNat]
  omega

end

/-! ### Decoding what was encoded -/

/-- The decoder reads back the fields that the format of the opcode laid down, a shift amount among them if it fits. -/
theorem decodeWord_encode {i : Instr} (wf : i.wellFormed = true) : decodeWord (encode i) = .ok i := by
  cases i
  case roli | slli | rori | srai =>
    simp only [Instr.wellFormed] at wf
    simp [decodeWord, encode, shiftImmField_encodeI1, wf]
  case rol | sll | ror | sra => simp [decodeWord, encode, decodeShiftR]
  case add | sub | or | and => simp [decodeWord, encode, decodeAluR]
  all_goals simp [decodeWord, encode]

/-- Settles O2: the two bytes make up the encoded word in either byte order, and that word decodes. -/
theorem decodeOfEncodeIsTheInstruction : Obligations.DecodeOfEncodeIsTheInstruction := by
  intro e i rest wf
  have word : wordOfBytes e (lowerByte e (encode i)) (higherByte e (encode i)) = encode i := wordOfBytes_bytes e _
  simp only [encodeBytes, List.cons_append, List.nil_append, decodeBytes, word, decodeWord_encode wf]

/-! ### Encoding what was decoded -/

/-- A word is its opcode above the rest. -/
theorem word_eq_append (w : Word) : w = (opcodeField w ++ disp11Field w : Word) := by
  simp only [opcodeField, disp11Field, BitVec.extractLsb]
  rw [BitVec.extractLsb'_append_extractLsb'_eq_extractLsb' (by omega)]
  exact BitVec.extractLsb'_eq_self.symm

/-- A mask that keeps all of `high` acts on `low` alone. -/
theorem append_and_append {h l : Nat} (high : BitVec h) (low mask : BitVec l) :
    (high ++ low) &&& (BitVec.allOnes h ++ mask) = high ++ (low &&& mask) := by
  rw [BitVec.and_append, BitVec.and_allOnes]

theorem and_0xFFFF (w : Word) : w &&& 0xFFFF = w := BitVec.and_allOnes

/-- Dropping insn[4] of an immediate is masking it. -/
theorem imm5Field_and_mask (w : Word) : imm5Field w &&& 0b01111#5 = shiftImmField w := by
  have amount : (imm5Field w).toNat = w.toNat % 32 := by simp [imm5Field]
  apply BitVec.eq_of_toNat_eq
  rw [shiftImmField_toNat, BitVec.toNat_and, amount]
  exact (Nat.and_two_pow_sub_one_eq_mod _ 4).trans (by omega)

theorem shiftAmountFits_shiftImmField (w : Word) : shiftAmountFits (shiftImmField w) = true := by
  rw [shiftAmountFits, shiftImmField_toNat, decide_eq_true_eq]
  omega

section
variable {w : Word} {op : BitVec 5}

theorem encodeOpcodeOnly_fields (h : opcodeField w = op) : encodeOpcodeOnly op = w &&& 0xF800 := by
  conv_rhs => rw [word_eq_append w, h]
  exact (Laws.and_opcode_mask _ _).symm

theorem encodeJ_fields (h : opcodeField w = op) : encodeJ op (disp11Field w) = w := by
  conv_rhs => rw [word_eq_append w, h]
  rfl

theorem encodeI2_fields (h : opcodeField w = op) : encodeI2 op (rsField w) (imm8Field w) = w := by
  conv_rhs => rw [← encodeJ_fields h]
  rw [encodeI2, encodeJ, BitVec.append_assoc]
  simp only [rsField, imm8Field, disp11Field, Reg.toBits_ofBits, BitVec.extractLsb]
  rw [BitVec.extractLsb'_append_extractLsb'_eq_extractLsb' (by omega)]
  rfl

theorem encodeI1_fields (h : opcodeField w = op) : encodeI1 op (rsField w) (rdFieldI w) (imm5Field w) = w := by
  conv_rhs => rw [← encodeI2_fields h]
  rw [encodeI1_eq_encodeI2]
  simp only [rdFieldI, imm5Field, imm8Field, Reg.toBits_ofBits, BitVec.extractLsb]
  rw [BitVec.extractLsb'_append_extractLsb'_eq_extractLsb' (by omega)]

theorem encodeR_fields {ext : BitVec 2} (h : opcodeField w = op) (he : extField w = ext) :
    encodeR op (rsField w) (rtField w) (rdFieldR w) ext = w := by
  conv_rhs => rw [← encodeI1_fields h]
  rw [← he, encodeR_eq_encodeI1]
  simp only [rtField, rdFieldI, rdFieldR, extField, imm5Field, Reg.toBits_ofBits, BitVec.extractLsb]
  rw [BitVec.extractLsb'_append_extractLsb'_eq_extractLsb' (by omega)]

/-- SIIC's insn[7:0] cleared. -/
theorem encodeI2_fields_zero (h : opcodeField w = op) : encodeI2 op (rsField w) 0 = w &&& 0xFF00 := by
  conv_rhs => rw [← encodeI2_fields h]
  exact ((append_and_append _ _ 0#8).trans (by rw [BitVec.and_zero]; rfl)).symm

/-- The insn[4] of a shift immediate cleared. -/
theorem encodeI1_fields_shift (h : opcodeField w = op) :
    encodeI1 op (rsField w) (rdFieldI w) (shiftImmField w) = w &&& 0xFFEF := by
  conv_rhs => rw [← encodeI1_fields h]
  exact ((append_and_append _ _ 0b01111#5).trans (by rw [imm5Field_and_mask]; rfl)).symm

/-- The insn[1:0] of a set instruction cleared. -/
theorem encodeR_fields_zero (h : opcodeField w = op) :
    encodeR op (rsField w) (rtField w) (rdFieldR w) 0 = w &&& 0xFFFC := by
  conv_rhs => rw [← encodeR_fields h rfl]
  exact ((append_and_append _ _ 0#2).trans (by rw [BitVec.and_zero]; rfl)).symm

end

/-- What a word decodes to is well-formed, and its canonical word is that word with the ignored bits cleared. The cases
are the branches of `decodeWord`, by the format of their opcode. -/
theorem encode_of_decodeWord {w : Word} {i : Instr} (h : decodeWord w = .ok i) :
    i.wellFormed = true ∧ encode i = w &&& i.careMask := by
  unfold decodeWord at h
  split at h <;> cases h
  -- HALT, NOP, RTI, RET
  case h_1 op | h_2 op | h_4 op | h_15 op => exact ⟨rfl, encodeOpcodeOnly_fields op⟩
  case h_3 op => exact ⟨rfl, encodeI2_fields_zero op⟩
  -- J, JAL
  case h_5 op | h_7 op => exact ⟨rfl, (encodeJ_fields op).trans (and_0xFFFF w).symm⟩
  -- JR, JALR, the branches, SLBI, LBI
  case h_6 op | h_8 op | h_13 op | h_14 op | h_18 op | h_24 op =>
    exact ⟨rfl, (encodeI2_fields op).trans (and_0xFFFF w).symm⟩
  -- ADDI, SUBI, ORI, ANDI, ST, LD, STU
  case h_9 op | h_10 op | h_11 op | h_12 op | h_16 op | h_17 op | h_19 op =>
    exact ⟨rfl, (encodeI1_fields op).trans (and_0xFFFF w).symm⟩
  -- ROLI, SLLI, RORI, SRAI
  case h_20 op | h_21 op | h_22 op | h_23 op => exact ⟨shiftAmountFits_shiftImmField w, encodeI1_fields_shift op⟩
  -- the R-format with an extension, and SEQ, SLT, SLE, SCO, which ignore it
  case h_25 op =>
    unfold decodeShiftR
    split <;> next ext => exact ⟨rfl, (encodeR_fields op ext).trans (and_0xFFFF w).symm⟩
  case h_26 op =>
    unfold decodeAluR
    split <;> next ext => exact ⟨rfl, (encodeR_fields op ext).trans (and_0xFFFF w).symm⟩
  case h_27 op | h_28 op | h_29 op | h_30 op => exact ⟨rfl, encodeR_fields_zero op⟩

/-- The opcode decides whether a word decodes and which of its bits are ignored. -/
theorem decodeWord_of_same_opcode {v w : Word} {i : Instr} (op : opcodeField v = opcodeField w)
    (h : decodeWord w = .ok i) : ∃ j, decodeWord v = .ok j ∧ j.careMask = i.careMask := by
  have shiftR (u : Word) : (decodeShiftR u).careMask = 0xFFFF := by unfold decodeShiftR; split <;> rfl
  have aluR (u : Word) : (decodeAluR u).careMask = 0xFFFF := by unfold decodeAluR; split <;> rfl
  unfold decodeWord at h ⊢
  rw [op]
  split at h <;> cases h
  case h_25 => exact ⟨_, rfl, (shiftR v).trans (shiftR w).symm⟩
  case h_26 => exact ⟨_, rfl, (aluR v).trans (aluR w).symm⟩
  all_goals exact ⟨_, rfl, rfl⟩

/-- No instruction ignores a bit of its opcode. -/
theorem careMask_and_0xF800 (i : Instr) : i.careMask &&& 0xF800 = 0xF800 := by
  cases i <;> simp only [Instr.careMask] <;> decide

theorem opcodeField_and_0xF800 (w : Word) : opcodeField (w &&& 0xF800) = opcodeField w := by
  rw [← encodeOpcodeOnly_fields rfl, opcodeField_encodeOpcodeOnly]

theorem opcodeField_and_careMask (w : Word) (i : Instr) : opcodeField (w &&& i.careMask) = opcodeField w := by
  rw [← opcodeField_and_0xF800, BitVec.and_assoc, careMask_and_0xF800, opcodeField_and_0xF800]

/-- Settles O3: the other word has the same opcode, so it decodes to some instruction with the same ignored bits; both
instructions have one canonical word, which decodes to one instruction. -/
theorem decodedWordReencodesUpToIgnoredBits : Obligations.DecodedWordReencodesUpToIgnoredBits := by
  intro w i h
  obtain ⟨wf, canonical⟩ := encode_of_decodeWord h
  refine ⟨wf, canonical, fun w' agree => ?_⟩
  have opcode : opcodeField w' = opcodeField w := by
    rw [← opcodeField_and_careMask w' i, agree, opcodeField_and_careMask]
  obtain ⟨j, h', mask⟩ := decodeWord_of_same_opcode opcode h
  obtain ⟨wf', canonical'⟩ := encode_of_decodeWord h'
  have words : encode j = encode i := by rw [canonical', canonical, mask, agree]
  calc
    decodeWord w' = decodeWord (encode j) := by rw [h', decodeWord_encode wf']
    _ = .ok i := by rw [words, decodeWord_encode wf]

/-- Settles O1: the decoder evaluated on each word. -/
theorem specWordsDecode : Obligations.SpecWordsDecode := by
  unfold Obligations.SpecWordsDecode
  decide

end Sys2Proof

/-! The assembler (30_encoding.md section 6): the instructions it looks through contain every instruction of its text,
and no two of one mnemonic. -/

namespace Sys2Proof

/-- The number of an immediate, cut to its field again, is the immediate, so an instruction is among those of its text. -/
theorem mem_instrsOfOperands (i : Instr) : i ∈ instrsOfOperands i.operands := by
  cases i <;> simp [Instr.operands, instrsOfOperands]

/-- Instructions whose texts have the same operands differ in their mnemonics. -/
theorem nodup_mnemonics (ops : List AsmOperand) : ((instrsOfOperands ops).map Instr.mnemonic).Nodup := by
  unfold instrsOfOperands
  split <;> simp [Instr.mnemonic]

/-- What the assembler answers is among the instructions it looked through, and passed its three checks. -/
theorem of_assemble_eq_some {mnemonic : String} {ops : List AsmOperand} {i : Instr}
    (h : assemble mnemonic ops = some i) :
    i ∈ instrsOfOperands ops ∧ i.wellFormed = true ∧ i.mnemonic = mnemonic ∧ i.operands = ops := by
  have checks := List.find?_some h
  simp only [Bool.and_eq_true, beq_iff_eq] at checks
  obtain ⟨⟨name, operands⟩, wf⟩ := checks
  exact ⟨List.mem_of_find?_eq_some h, wf, name, operands⟩

/-- Settles O5: the assembler finds some instruction for the text of a well-formed one, and of the instructions of one
text a mnemonic names one at most. -/
theorem assemblerGivesExactlyTheInstructionOfItsText : Obligations.AssemblerGivesExactlyTheInstructionOfItsText := by
  intro mnemonic ops i
  refine ⟨fun h => (of_assemble_eq_some h).2, ?_⟩
  rintro ⟨wf, rfl, rfl⟩
  have listed := mem_instrsOfOperands i
  obtain ⟨j, found⟩ : ∃ j, assemble i.mnemonic i.operands = some j :=
    Option.isSome_iff_exists.mp (List.find?_isSome.mpr ⟨i, listed, by simp [wf]⟩)
  obtain ⟨listed', -, name, -⟩ := of_assemble_eq_some found
  rw [found, List.inj_on_of_nodup_map (nodup_mnemonics _) listed' listed name]

end Sys2Proof

/-! The fetch and the ways a step stops (60_exceptions.md section 5): each of `instrOfWord`, `State.fetchInstr`, `exec`
and `step` faults under conditions said once here, in the order of R227. -/

namespace Sys2Proof.Machine

/-! ### The fetch of a machine that can fetch -/

theorem State.CanFetch.fetchInstr {s : State} (h : s.CanFetch) : s.fetchInstr = instrOfWord s.params s.codeWord := by
  have word : s.fetchWord = .ok s.codeWord := State.fetchWord_ok.mpr ⟨h.even, h.clean, rfl⟩
  rw [State.fetchInstr, word]

theorem State.CanFetch.step_of_instrOfWord {s : State} {i : Instr} (h : s.CanFetch)
    (hi : instrOfWord s.params s.codeWord = .ok i) : step s = exec i s :=
  step_of_fetch h.running (h.fetchInstr.trans hi)

theorem State.CanFetch.step_of_decode {s : State} {i : Instr} (h : s.CanFetch) (hi : decodeWord s.codeWord = .ok i) :
    step s = exec i s :=
  h.step_of_instrOfWord (instrOfWord_of_decode hi)

theorem State.codeByte_of_not_split {s : State} (h : s.params.ifetch ≠ .split) (a : Word) : s.codeByte a = s.byte a := by
  unfold State.codeByte
  split
  · rfl
  · rfl
  · next split => exact absurd split h

theorem State.codeByte_of_split {s : State} (h : s.params.ifetch = .split) (a : Word) :
    s.codeByte a = s.imageByte a := by
  simp only [State.codeByte, h]

/-- Two bytes decode as the word they are. -/
theorem decodeBytes_pair {e : Config.Endian} {lower higher : Byte} {i : Instr} :
    decodeBytes e [lower, higher] = .ok (i, []) ↔ decodeWord (wordOfBytes e lower higher) = .ok i := by
  simp only [decodeBytes]
  split <;> simp_all

/-- Settles O6: `codeWord` is the word of the two bytes that decode. -/
theorem stepRunsTheDecodedInstruction : Obligations.StepRunsTheDecodedInstruction := by
  intro s i h
  refine ⟨fun coherence bytes => h.step_of_decode ?_, fun coherence bytes => h.step_of_decode ?_⟩
  · simp only [State.codeWord, State.codeByte_of_not_split coherence]
    exact decodeBytes_pair.mp bytes
  · simp only [State.codeWord, State.codeByte_of_split coherence]
    exact decodeBytes_pair.mp bytes

/-! ### The instruction of a fetched word (R83, R84) -/

theorem not_unassignedWord_of_decode {w : Word} {i : Instr} (h : decodeWord w = .ok i) : ¬ UnassignedWord w := by
  intro unassigned
  cases (decodeWord_error_iff.mpr ⟨unassigned, rfl⟩).symm.trans h

/-- Only an unassigned opcode has no instruction, under UNASSIGNED_OPCODE = fault. -/
theorem instrOfWord_error_iff {p : Config.Params} {w : Word} {f : Fault} :
    instrOfWord p w = .error f ↔ UnassignedWord w ∧ p.unassigned = .fault ∧ f = .unassignedOpcode := by
  cases h : decodeWord w with
  | ok i =>
    simp [instrOfWord, h, not_unassignedWord_of_decode h]
  | error r =>
    obtain ⟨unassigned, -⟩ := decodeWord_error_iff.mp h
    cases mode : p.unassigned <;> simp [instrOfWord, h, mode, unassigned, eq_comm]

/-- A word has the instruction it decodes to, or acts as SIIC under UNASSIGNED_OPCODE = illegalop. -/
theorem instrOfWord_ok_iff {p : Config.Params} {w : Word} {i : Instr} :
    instrOfWord p w = .ok i ↔
      decodeWord w = .ok i ∨ UnassignedWord w ∧ p.unassigned = .illegalop ∧ i = .siic (rsField w) := by
  cases h : decodeWord w with
  | ok j =>
    simp [instrOfWord, h, not_unassignedWord_of_decode h]
  | error r =>
    obtain ⟨unassigned, -⟩ := decodeWord_error_iff.mp h
    cases mode : p.unassigned <;> simp [instrOfWord, h, mode, unassigned, eq_comm]

theorem decodeWord_siic {w : Word} (opcode : w.extractLsb 15 11 = 0b00010#5) :
    decodeWord w = .ok (.siic (rsField w)) := by
  simp only [decodeWord, opcodeField, opcode]

/-- A word that decodes to SIIC has its opcode: the canonical word of SIIC has, and no opcode bit is ignored. -/
theorem opcode_of_decodeWord_siic {w : Word} {rs : Reg} (h : decodeWord w = .ok (.siic rs)) :
    w.extractLsb 15 11 = 0b00010#5 := by
  obtain ⟨-, canonical⟩ := encode_of_decodeWord h
  calc
    opcodeField w = opcodeField (encode (.siic rs)) := by rw [canonical, opcodeField_and_careMask]
    _ = 0b00010#5 := opcodeField_encodeI2 _ _ _

/-- The words that act as SIIC. -/
theorem instrOfWord_siic_iff {p : Config.Params} {w : Word} :
    (∃ rs, instrOfWord p w = .ok (.siic rs)) ↔
      w.extractLsb 15 11 = 0b00010#5 ∨ UnassignedWord w ∧ p.unassigned = .illegalop := by
  constructor
  · rintro ⟨rs, h⟩
    obtain decoded | ⟨unassigned, mode, -⟩ := instrOfWord_ok_iff.mp h
    · exact .inl (opcode_of_decodeWord_siic decoded)
    · exact .inr ⟨unassigned, mode⟩
  · rintro (opcode | ⟨unassigned, mode⟩)
    · exact ⟨_, instrOfWord_of_decode (decodeWord_siic opcode)⟩
    · exact ⟨_, instrOfWord_ok_iff.mpr (.inr ⟨unassigned, mode, rfl⟩)⟩

/-! ### The faults of an instruction (R135, R211) -/

theorem ifAligned_fault {ea : Word} {t : State} {f : Fault} (h : ifAligned ea (.next t) = .fault f) :
    ea.getLsbD 0 = true ∧ f = .misalignedData := by
  unfold ifAligned at h
  split at h <;> cases h
  next odd => exact ⟨odd, rfl⟩

theorem exec_siic_of_no_exc (rs : Reg) {s : State} (exc : s.params.exc = false) :
    exec (.siic rs) s = .fault .siicNotImplemented := by
  rw [exec_siic, exc, cond_false]

/-- SIIC ignores its register (R84). -/
theorem exec_siic_congr (rs rs' : Reg) (s : State) : exec (.siic rs) s = exec (.siic rs') s := rfl

theorem exec_of_odd_dataAddress {i : Instr} {s : State} {ea : Word} (access : dataAddress s i = some ea)
    (odd : ea.getLsbD 0 = true) : exec i s = .fault .misalignedData := by
  unfold dataAddress at access
  split at access <;> cases access
  all_goals exact ifAligned_of_odd _ odd

/-- The only faults of an instruction are SIIC's without the exceptions and an odd data address. -/
theorem exec_fault {i : Instr} {s : State} {f : Fault} (h : exec i s = .fault f) :
    (∃ rs, i = .siic rs) ∧ s.params.exc = false ∧ f = .siicNotImplemented ∨
      (∃ ea, dataAddress s i = some ea ∧ ea.getLsbD 0 = true) ∧ f = .misalignedData := by
  cases execForm i with
  | goto _ _ answer => cases (answer s).symm.trans h
  | result _ _ answer _ => cases (answer s).symm.trans h
  | halt => cases h
  | siic rs =>
    rw [exec_siic] at h
    cases exc : s.params.exc <;> rw [exc] at h <;> cases h
    exact .inl ⟨⟨rs, rfl⟩, rfl, rfl⟩
  | st rd rs imm5 | ld rd rs imm5 | stu rd rs imm5 =>
    obtain ⟨odd, rfl⟩ := ifAligned_fault h
    exact .inr ⟨⟨_, rfl, odd⟩, rfl⟩

/-! ### The faults of a step, in the order of R227 -/

theorem step_of_halted {s : State} (h : s.halted = true) : step s = .refused .halted := by
  simp only [step, h, if_true]

theorem State.fetchInstr_of_fetchesStored {s : State} (even : s.pc.getLsbD 0 = false) (stored : s.FetchesStored) :
    s.fetchInstr = .error .fetchAfterStore := by
  have word : s.fetchWord = .error .fetchAfterStore := by
    rw [State.fetchWord, even, if_neg Bool.false_ne_true]
    exact if_pos stored
  rw [State.fetchInstr, word]

theorem step_of_fetch_fault {s : State} {f : Fault} (running : s.halted = false) (h : s.fetchInstr = .error f) :
    step s = .fault f := by
  simp [step, running, h]

/-- A state is halted, or stops at one of the two checks of its PC, or can fetch. -/
theorem State.halted_or_stops_or_canFetch (s : State) :
    s.halted = true ∨ (s.halted = false ∧ s.pc.getLsbD 0 = true) ∨
      (s.halted = false ∧ s.pc.getLsbD 0 = false ∧ s.FetchesStored) ∨ s.CanFetch := by
  cases halted : s.halted with
  | true => exact .inl rfl
  | false =>
    cases odd : s.pc.getLsbD 0 with
    | true => exact .inr (.inl ⟨rfl, rfl⟩)
    | false =>
      by_cases stored : s.FetchesStored
      · exact .inr (.inr (.inl ⟨rfl, rfl, stored⟩))
      · exact .inr (.inr (.inr ⟨halted, odd, stored⟩))

/-- The condition of each fault of a step (R235, and log entry 9 in SiicNotImplemented). -/
def faultCondition (s : State) : Fault → Prop
  | .misalignedFetch => s.halted = false ∧ s.pc.getLsbD 0 = true
  | .fetchAfterStore => s.halted = false ∧ s.pc.getLsbD 0 = false ∧ s.FetchesStored
  | .unassignedOpcode => s.CanFetch ∧ UnassignedWord s.codeWord ∧ s.params.unassigned = .fault
  | .siicNotImplemented =>
    s.CanFetch ∧ s.params.exc = false ∧
      (s.codeWord.extractLsb 15 11 = 0b00010#5 ∨ (UnassignedWord s.codeWord ∧ s.params.unassigned = .illegalop))
  | .misalignedData =>
    s.CanFetch ∧ ∃ i ea, decodeWord s.codeWord = .ok i ∧ dataAddress s i = some ea ∧ ea.getLsbD 0 = true

theorem step_fault_of_faultCondition {s : State} {f : Fault} (h : faultCondition s f) : step s = .fault f := by
  cases f with
  | misalignedFetch =>
    obtain ⟨running, odd⟩ := h
    exact oddPcStopsNextStep s running odd
  | fetchAfterStore =>
    obtain ⟨running, even, stored⟩ := h
    exact step_of_fetch_fault running (State.fetchInstr_of_fetchesStored even stored)
  | unassignedOpcode =>
    obtain ⟨ready, unassigned, mode⟩ := h
    exact step_of_fetch_fault ready.running
      (ready.fetchInstr.trans (instrOfWord_error_iff.mpr ⟨unassigned, mode, rfl⟩))
  | siicNotImplemented =>
    obtain ⟨ready, exc, word⟩ := h
    obtain ⟨rs, siic⟩ := instrOfWord_siic_iff.mpr word
    rw [ready.step_of_instrOfWord siic, exec_siic_of_no_exc rs exc]
  | misalignedData =>
    obtain ⟨ready, i, ea, decoded, access, odd⟩ := h
    rw [ready.step_of_decode decoded, exec_of_odd_dataAddress access odd]

/-- Past the two checks of its PC, a step faults for want of an instruction or as its instruction does. -/
theorem State.CanFetch.faultCondition_of_step {s : State} {f : Fault} (ready : s.CanFetch) (h : step s = .fault f) :
    faultCondition s f := by
  cases fetched : instrOfWord s.params s.codeWord with
  | error r =>
    cases (step_of_fetch_fault ready.running (ready.fetchInstr.trans fetched)).symm.trans h
    obtain ⟨unassigned, mode, rfl⟩ := instrOfWord_error_iff.mp fetched
    exact ⟨ready, unassigned, mode⟩
  | ok i =>
    rw [ready.step_of_instrOfWord fetched] at h
    obtain ⟨⟨rs, rfl⟩, exc, rfl⟩ | ⟨⟨ea, access, odd⟩, rfl⟩ := exec_fault h
    · exact ⟨ready, exc, instrOfWord_siic_iff.mp ⟨rs, fetched⟩⟩
    · obtain decoded | ⟨-, -, rfl⟩ := instrOfWord_ok_iff.mp fetched
      · exact ⟨ready, i, ea, decoded, access, odd⟩
      · cases access

theorem step_fault_iff {s : State} {f : Fault} : step s = .fault f ↔ faultCondition s f := by
  refine ⟨fun h => ?_, step_fault_of_faultCondition⟩
  obtain halted | odd | stored | ready := s.halted_or_stops_or_canFetch
  · cases (step_of_halted halted).symm.trans h
  · cases (step_fault_of_faultCondition (f := .misalignedFetch) odd).symm.trans h
    exact odd
  · cases (step_fault_of_faultCondition (f := .fetchAfterStore) stored).symm.trans h
    exact stored
  · exact ready.faultCondition_of_step h

/-- No step is refused but that of a halted machine, since no instruction is. -/
theorem step_refused_iff {s : State} {r : Refusal} : step s = .refused r ↔ s.halted = true ∧ r = .halted := by
  constructor
  · intro h
    cases halted : s.halted with
    | true => cases (step_of_halted halted).symm.trans h; exact ⟨rfl, rfl⟩
    | false =>
      cases fetched : s.fetchInstr with
      | ok i => exact absurd ((step_of_fetch halted fetched).symm.trans h) (exec_refused i s r)
      | error f => cases (step_of_fetch_fault halted fetched).symm.trans h
  · rintro ⟨halted, rfl⟩
    exact step_of_halted halted

/-! ### The statements -/

/-- Settles O7: the step has no instruction to run, or runs SIIC, whose register is ignored. -/
theorem unassignedOpcodeFaultsOrActsAsSiic : Obligations.UnassignedOpcodeFaultsOrActsAsSiic := by
  intro s ready unassigned
  refine ⟨fun mode => step_fault_iff.mpr ⟨ready, unassigned, mode⟩, fun mode rs => ?_⟩
  rw [ready.step_of_instrOfWord (instrOfWord_ok_iff.mpr (.inr ⟨unassigned, mode, rfl⟩)), exec_siic_congr _ rs]

/-- Settles O8: `faultCondition` is the condition that the statement gives each fault. -/
theorem stepStopsExactlyWhereTheSpecSays : Obligations.StepStopsExactlyWhereTheSpecSays :=
  fun _ => ⟨fun _ => step_refused_iff, step_fault_iff, step_fault_iff, step_fault_iff, step_fault_iff, step_fault_iff⟩

end Sys2Proof.Machine

/-! Launching a machine and loading a word where its next fetch reads it (70_reset_and_hazards.md section 1). -/

namespace Sys2Proof.Machine

/-! ### A word loaded at the PC -/

/-- A byte after a word is written to a memory. -/
theorem Memory.read_writeWord {m : Memory} (h : Memory.wf m) (e : Config.Endian) (a w k : Word) :
    (m.writeWord e a w).read k.toNat =
      if k = a + 1 then higherByte e w else if k = a then lowerByte e w else m.read k.toNat := by
  rw [Memory.writeWord, Memory.read_write _ (Memory.wf_write _ h _ a.isLt _), Memory.read_write _ h]
  simp only [BitVec.toNat_inj]

theorem wordOfBytes_read_writeWord {m : Memory} (h : Memory.wf m) (e : Config.Endian) (a w : Word) :
    wordOfBytes e ((m.writeWord e a w).read a.toNat) ((m.writeWord e a w).read (a + 1).toNat) = w := by
  rw [Memory.read_writeWord h, Memory.read_writeWord h, if_neg (add_one_ne a).symm, if_pos rfl, if_pos rfl,
    wordOfBytes_bytes]

theorem State.placeInstr_canFetch (s : State) (w : Word) : (s.placeInstr w).CanFetch where
  running := rfl
  even := by simp [State.placeInstr]
  clean := by
    rintro ⟨-, marked⟩
    simp [State.isWritten, State.placeInstr] at marked

/-- The fetch reads the word loaded, from memory or from the image. -/
theorem State.codeWord_placeInstr {s : State} (mem : Memory.wf s.mem) (image : Memory.wf s.image) (w : Word) :
    (s.placeInstr w).codeWord = w := by
  by_cases split : (s.placeInstr w).params.ifetch = .split
  · rw [State.codeWord, State.codeByte_of_split split, State.codeByte_of_split split]
    exact wordOfBytes_read_writeWord image _ _ w
  · rw [State.codeWord, State.codeByte_of_not_split split, State.codeByte_of_not_split split]
    exact wordOfBytes_read_writeWord mem _ _ w

theorem State.withFetchWord_toNat (s : State) (w : Word) : s.withFetchWord 16 w.toNat = s.placeInstr w := by
  rw [State.withFetchWord, Nat.mod_eq_of_lt w.isLt, BitVec.ofNat_toNat, BitVec.setWidth_eq]

theorem decodeTableWord_toNat {w : Word} {i : Instr} (h : decodeWord w = .ok i) :
    decodeTableWord 16 w.toNat = some i := by
  have word : wordOfBytes .big (lowerByte .big w) (higherByte .big w) = w := wordOfBytes_bytes _ w
  simp only [decodeTableWord, Nat.mod_eq_of_lt w.isLt, BitVec.ofNat_toNat, BitVec.setWidth_eq, decodeBytes, word, h]

/-- Settles O9: the machine with the word loaded can fetch, and what it fetches is that word. -/
theorem loadedWordIsTheNextInstruction : Obligations.LoadedWordIsTheNextInstruction := by
  intro s w i hs h
  rw [State.withFetchWord_toNat]
  have decoded : decodeWord (s.placeInstr w).codeWord = .ok i := by
    rw [State.codeWord_placeInstr hs.mem_wf hs.image_wf, h]
  exact ⟨(s.placeInstr_canFetch w).step_of_decode decoded, decodeTableWord_toNat h⟩

/-! ### The launch -/

theorem Marks.wf_nil : Marks.wf [] := by simp [Marks.wf]

/-- Memory is the image and no byte is marked, whatever the other arguments of the launch. -/
theorem State.launch_inv (p : Config.Params) (g : Regs) (e : Word) {m : Memory} (h : Memory.wf m) :
    (State.launch p g e m).Inv where
  mem_wf := h
  image_wf := h
  written_wf := Marks.wf_nil
  written_in_pairs _ := rfl
  unwritten_as_loaded _ _ _ := rfl
  written_only_when_kept _ := rfl

/-- Settles O11: the image of `State.reset` lists nothing, so it is canonical. -/
theorem launchMeetsTheInvariant : Obligations.LaunchMeetsTheInvariant :=
  ⟨fun p g e _ h => State.launch_inv p g e h, State.launch_inv _ _ _ Memory.wf_nil⟩

end Sys2Proof.Machine

/-! The remaining instructions whose result the spec derives: SLT and SLE (44_set.md), JALR (47_jump.md), LD, ST and STU
at an even address (42_load_store.md). -/

namespace Sys2Proof.Machine

/-! ### The words (R73, R74, R81) -/

section
variable {w : Word}

theorem decodeWord_slt (opcode : w.extractLsb 15 11 = 0b11101#5) :
    decodeWord w = .ok (.slt (rdFieldR w) (rsField w) (rtField w)) := by
  simp only [decodeWord, opcodeField, opcode]

theorem decodeWord_sle (opcode : w.extractLsb 15 11 = 0b11110#5) :
    decodeWord w = .ok (.sle (rdFieldR w) (rsField w) (rtField w)) := by
  simp only [decodeWord, opcodeField, opcode]

theorem decodeWord_jalr (opcode : w.extractLsb 15 11 = 0b00111#5) :
    decodeWord w = .ok (.jalr (rsField w) (imm8Field w)) := by
  simp only [decodeWord, opcodeField, opcode]

theorem decodeWord_st (opcode : w.extractLsb 15 11 = 0b10000#5) :
    decodeWord w = .ok (.st (rdFieldI w) (rsField w) (imm5Field w)) := by
  simp only [decodeWord, opcodeField, opcode]

theorem decodeWord_ld (opcode : w.extractLsb 15 11 = 0b10001#5) :
    decodeWord w = .ok (.ld (rdFieldI w) (rsField w) (imm5Field w)) := by
  simp only [decodeWord, opcodeField, opcode]

theorem decodeWord_stu (opcode : w.extractLsb 15 11 = 0b10011#5) :
    decodeWord w = .ok (.stu (rdFieldI w) (rsField w) (imm5Field w)) := by
  simp only [decodeWord, opcodeField, opcode]

end

/-! ### SLT, SLE and JALR -/

section
variable (rd rs rt : Reg) (imm8 : BitVec 8) (s : State)

theorem exec_slt :
    exec (.slt rd rs rt) s = .next (s.setReg rd (boolWord (condLt (s.reg rs) (s.reg rt)))).advance := rfl

theorem exec_sle :
    exec (.sle rd rs rt) s = .next (s.setReg rd (boolWord (condLe (s.reg rs) (s.reg rt)))).advance := rfl

theorem exec_jalr : exec (.jalr rs imm8) s = .next ((s.setReg .R7 (s.pc + 2)).setPc (s.regTarget rs imm8)) := rfl

end

/-- Settles O30: the conditions are the comparisons of the signed values, for every pair of words. -/
theorem sltSleResult : Obligations.SltSleResult := by
  refine ⟨fun _ => decodeWord_slt, fun _ => decodeWord_sle, fun rd rs rt s => ?_, fun rd rs rt s => ?_⟩
  · rw [← boolWord_eq_ite (condLt_iff _ _)]
    exact ⟨_, exec_slt rd rs rt s, s.writesResult_setReg_advance rd _⟩
  · rw [← boolWord_eq_ite (condLe_iff _ _)]
    exact ⟨_, exec_sle rd rs rt s, s.writesResult_setReg_advance rd _⟩

/-- Settles O36: the target is computed in the state before the link is written, so JALR R7 goes by the old R7. -/
theorem jumpAndLinkRegisterResult : Obligations.JumpAndLinkRegisterResult := by
  refine ⟨fun _ => decodeWord_jalr, fun rs imm8 s => ?_⟩
  have answer := exec_jalr rs imm8 s
  have plain : Plain (.jalr rs imm8) := by simp [Plain]
  rw [← s.regTarget_eq_ofInt rs imm8]
  exact ⟨_, answer, s.reg_setReg_same .R7 _, rfl, plain.onlyRegsChanged answer ⟨rfl, rfl, rfl, rfl⟩,
    oddPcStopsNextStep _⟩

/-! ### LD -/

/-- Settles O38: LD writes `readWord` of its address as a result, and that is the two bytes in the machine's order. -/
theorem loadResult : Obligations.LoadResult := by
  refine ⟨fun _ => decodeWord_ld, fun rd rs imm5 s ea address even => ?_⟩
  obtain rfl : ea = s.effAddr rs imm5 := address.trans (s.effAddr_eq_ofInt rs imm5).symm
  have result := s.writesResult_setReg_advance rd (s.readWord (s.effAddr rs imm5))
  refine ⟨_, ifAligned_of_even _ even, fun order => ?_, fun order => ?_⟩
  · simpa only [State.readWord, order, wordOfBytes] using result
  · simpa only [State.readWord, order, wordOfBytes] using result

/-! ### ST and STU -/

/-- What the two stores leave in memory: the datum stored, its marks, and the frame. -/
structure StoresDatum (ea v : Word) (s t : State) : Prop where
  big    : s.params.endian = .big → t.byte ea = v.extractLsb 15 8 ∧ t.byte (ea + 1) = v.extractLsb 7 0
  little : s.params.endian = .little → t.byte ea = v.extractLsb 7 0 ∧ t.byte (ea + 1) = v.extractLsb 15 8
  low    : t.isWritten ea = (s.isWritten ea || decide (s.params.ifetch = .fault))
  high   : t.isWritten (ea + 1) = (s.isWritten (ea + 1) || decide (s.params.ifetch = .fault))
  frame  : MemoryUnchangedBut ea s t

theorem State.writeWord_storesDatum (s : State) (hm : Memory.wf s.mem) (ea v : Word) :
    StoresDatum ea v s (s.writeWord ea v) where
  big order := by simp [State.byte_writeWord s hm, order, lowerByte, higherByte]
  little order := by simp [State.byte_writeWord s hm, order, lowerByte, higherByte]
  low := by simp [State.isWritten_writeWord]
  high := by simp [State.isWritten_writeWord]
  frame := s.writeWord_frame hm ea v

theorem StoresDatum.trans_unchanged {ea v : Word} {s t u : State} (h : StoresDatum ea v s t)
    (same : MemoryUnchanged t u) : StoresDatum ea v s u where
  big order := by simpa only [same.1] using h.big order
  little order := by simpa only [same.1] using h.little order
  low := (same.2 ea).trans h.low
  high := (same.2 (ea + 1)).trans h.high
  frame := h.frame.trans_unchanged same

/-- What ST and STU leave: the datum stored at the effective address, and nothing else but Rs in STU. -/
theorem exec_store_result {i : Instr} {s t : State} {rd rs : Reg} {imm5 : BitVec 5}
    (hi : i = .st rd rs imm5 ∨ i = .stu rd rs imm5) (hs : s.Inv) (h : exec i s = .next t) :
    StoresDatum (s.effAddr rs imm5) (s.reg rd) s t ∧ t.pc = s.pc + 2 ∧
      OnlyRegsAndDatumChanged (writesRegs i) (s.effAddr rs imm5) s t := by
  obtain ⟨-, same⟩ := exec_store hi h
  have datum := (s.writeWord_storesDatum hs.mem_wf _ (s.reg rd)).trans_unchanged same.memoryUnchanged
  obtain ⟨params, image, -⟩ := exec_keeps_launch_and_marks h
  have epc : t.epc = s.epc := by
    obtain ⟨r, siic, -⟩ | ⟨-, kept⟩ := exec_epc h
    · rcases hi with rfl | rfl <;> cases siic
    · exact kept
  have halted : t.halted = s.halted :=
    Bool.eq_iff_iff.mpr ((exec_halted h).trans (or_iff_left (by rcases hi with rfl | rfl <;> simp)))
  have pc : t.pc = s.pc + 2 := (exec_pc h).trans (by rcases hi with rfl | rfl <;> rfl)
  exact ⟨datum, pc, exec_regs h, epc, halted, datum.frame, params, fun a => by simp only [State.imageByte, image]⟩

/-- Settles O37: ST lists no register to write, so only the datum and the PC change. -/
theorem storeResult : Obligations.StoreResult := by
  refine ⟨fun _ => decodeWord_st, fun rd rs imm5 s ea hs address even => ?_⟩
  obtain rfl : ea = s.effAddr rs imm5 := address.trans (s.effAddr_eq_ofInt rs imm5).symm
  have answer : exec (.st rd rs imm5) s = .next _ := ifAligned_of_even _ even
  obtain ⟨⟨big, little, low, high, -⟩, pc, frame⟩ := exec_store_result (.inl rfl) hs answer
  exact ⟨_, answer, rfl, big, little, low, high, pc, frame⟩

/-- Settles O39: STU lists Rs alone; what it stores is read in the state before Rs is written. -/
theorem storeWithUpdateResult : Obligations.StoreWithUpdateResult := by
  refine ⟨fun _ => decodeWord_stu, fun rd rs imm5 s ea hs address even => ?_⟩
  obtain rfl : ea = s.effAddr rs imm5 := address.trans (s.effAddr_eq_ofInt rs imm5).symm
  have answer : exec (.stu rd rs imm5) s = .next _ := ifAligned_of_even _ even
  obtain ⟨⟨big, little, low, high, -⟩, pc, frame⟩ := exec_store_result (.inr rfl) hs answer
  exact ⟨_, answer, rfl, State.reg_setReg_same _ rs _, big, little, low, high, pc, frame⟩

end Sys2Proof.Machine

/-! SIIC and RTI (48_exception_instructions.md, 60_exceptions.md section 3): what the exception and the return from it
leave as it was, and what the two instructions answer with and without the exceptions. -/

namespace Sys2Proof.Machine

/-! ### What the exception and the return from it leave -/

/-- `t` differs from `s` in the PC and EPC alone: the frame of SIIC and of RTI. -/
structure OnlyPcAndEpcChanged (s t : State) : Prop where
  regs   : RegsUnchangedBut [] s t
  halted : t.halted = s.halted
  memory : MemoryUnchanged s t
  launch : LaunchUnchanged s t

theorem State.onlyPcAndEpcChanged (s : State) (pc epc : Word) :
    OnlyPcAndEpcChanged s ((s.setEpc epc).setPc pc) where
  regs _ _ := rfl
  halted := rfl
  memory := ⟨fun _ => rfl, fun _ => rfl⟩
  launch := ⟨rfl, fun _ => rfl⟩

theorem exec_siic_of_exc (rs : Reg) {s : State} (exc : s.params.exc = true) :
    exec (.siic rs) s = .next ((s.setEpc (s.pc + 2)).setPc 0x0002) := by
  rw [exec_siic, exc, cond_true]
  rfl

theorem exec_rti_of_exc {s : State} (exc : s.params.exc = true) : exec .rti s = .next (s.setPc s.epc) := by
  rw [exec_rti, pcAfter, if_pos exc]

theorem exec_rti_of_no_exc {s : State} (exc : s.params.exc = false) : exec .rti s = exec .nop s := by
  rw [exec_rti, pcAfter, exc, if_neg Bool.false_ne_true]
  rfl

theorem decodeWord_rti {w : Word} (opcode : w.extractLsb 15 11 = 0b00011#5) : decodeWord w = .ok .rti := by
  simp only [decodeWord, opcodeField, opcode]

/-! ### The statements -/

/-- Settles O42: IllegalOp sets EPC and the PC, and SIIC does nothing else. -/
theorem siicTakesTheException : Obligations.SiicTakesTheException := by
  refine ⟨fun w opcode => ⟨_, decodeWord_siic opcode⟩, fun rs s exc => ?_, exec_siic_congr⟩
  obtain ⟨regs, halted, memory, launch⟩ := s.onlyPcAndEpcChanged 0x0002 (s.pc + 2)
  exact ⟨_, exec_siic_of_exc rs exc, rfl, rfl, regs, halted, memory, launch⟩

/-- Settles O43: SIIC asks for EXC before it takes the exception. -/
theorem siicWithoutExceptionsFaults : Obligations.SiicWithoutExceptionsFaults :=
  fun rs _ exc => exec_siic_of_no_exc rs exc

/-- Settles O44: RTI only sets the PC; SIIC's EPC is even as its own PC is. -/
theorem rtiLoadsThePcFromEpc : Obligations.RtiLoadsThePcFromEpc := by
  refine ⟨fun _ => decodeWord_rti, fun s exc => ?_, fun rs s t h even => ?_, fun s exc => ?_⟩
  · exact ⟨_, exec_rti_of_exc exc, rfl, s.onlyRegsChanged_setPc _, oddPcStopsNextStep _⟩
  · obtain ⟨-, rfl⟩ := exec_siic_next.mp h
    exact (getLsbD_zero_add_two s.pc).trans even
  · exact ⟨_, exec_rti_of_no_exc exc, rfl, s.onlyRegsChanged_setPc _, exec_rti_of_no_exc exc⟩

/-- Settles O45: the second SIIC runs at 0x0002, so the EPC it leaves is 0x0004, and the first one is lost. -/
theorem returnResumesAfterSiicAndNestingLosesIt : Obligations.ReturnResumesAfterSiicAndNestingLosesIt := by
  intro rs rs' s exc
  refine ⟨_, exec_siic_of_exc rs exc, ?_, ?_⟩
  · obtain ⟨regs, halted, memory, launch⟩ := s.onlyPcAndEpcChanged (s.pc + 2) (s.pc + 2)
    exact ⟨_, exec_rti_of_exc exc, rfl, rfl, regs, halted, memory, launch⟩
  · obtain ⟨regs, halted, memory, launch⟩ := s.onlyPcAndEpcChanged 0x0004 0x0004
    exact ⟨_, _, exec_siic_of_exc rs' exc, rfl, rfl, exec_rti_of_exc exc, rfl, rfl, regs, halted, memory, launch⟩

end Sys2Proof.Machine
